-- ==== Sys2Proof/Word.lean ====
section
/-! DEFINITION. The word of the machine and the plainest facts about its width
(spec/00_scope.md R7, R10; spec/10_state.md). -/

namespace Sys2Proof

/-- The machine's native integer and address granularity: an unsigned 16-bit word (R10, R12). -/
abbrev Word := BitVec 16

/-- One byte of a host's program image (R42). Inside the core there are no bytes. -/
abbrev Byte := BitVec 8

/-- Text of the toolchain (R78, R87), as a list of characters. -/
abbrev Text := List Char

/-- `n & 0xffff`, that is `n mod 2^16`: the only narrowing the ALU formulas use (R10). -/
abbrev narrow (n : Nat) : Word := BitVec.ofNat 16 n

end Sys2Proof
end

