-- ==== Sys2Proof/Machine/Flags.lean ====
section
/-! DEFINITION. The 16-bit ALU of spec/41_alu.md and the conditions of spec/42_conditional.md. Each
`alu…` is `Alu(op, vA, vB, O) = (res, oNew)`: the result and the value O is written with. Formulas are
exact over the naturals (integers for SUB) and narrowed only where the rule narrows (R10, R141), and
unsigned throughout (R142). -/

namespace Sys2Proof.Machine

/-- The type of an ALU operation: vA, vB and O give the result and the new O. -/
abbrev AluOp := Word → Word → Word → Word × Word

/-- R130: `A := B`; O unchanged. -/
def aluSet : AluOp := fun _ vB o => (vB, o)

/-- R131: the sum, and O 1 on a carry out of bit 15, else 0. -/
def aluAdd : AluOp := fun vA vB _ =>
  let s := vA.toNat + vB.toNat
  (narrow s, if s > 0xffff then 1 else 0)

/-- R132: the difference as integers modulo 2^16, and O 0xffff on a borrow, else 0. -/
def aluSub : AluOp := fun vA vB _ =>
  let d : Int := (vA.toNat : Int) - (vB.toNat : Int)
  (BitVec.ofInt 16 d, if d < 0 then 0xffff else 0)

/-- R133: the low half of the product, and O the high half. -/
def aluMul : AluOp := fun vA vB _ =>
  let p := vA.toNat * vB.toNat
  (narrow p, narrow (p >>> 16))

/-- R134: the quotient, and O the first 16 fraction bits; both 0 when the divisor is 0. -/
def aluDiv : AluOp := fun vA vB _ =>
  if vB.toNat = 0 then (0, 0)
  else (narrow (vA.toNat / vB.toNat), narrow ((vA.toNat <<< 16) / vB.toNat))

/-- R135: the remainder, 0 when the divisor is 0; O unchanged in both cases. -/
def aluMod : AluOp := fun vA vB o =>
  if vB.toNat = 0 then (0, o) else (narrow (vA.toNat % vB.toNat), o)

/-- R136: the exact shift left, its low half the result and the next 16 bits O. -/
def aluShl : AluOp := fun vA vB _ =>
  let s := vA.toNat <<< vB.toNat
  (narrow s, narrow (s >>> 16))

/-- R137: the logical shift right, and O the bits shifted out below bit 0, the highest in bit 15. -/
def aluShr : AluOp := fun vA vB _ =>
  (narrow (vA.toNat >>> vB.toNat), narrow ((vA.toNat <<< 16) >>> vB.toNat))

/-- R138: bitwise AND; O unchanged. -/
def aluAnd : AluOp := fun vA vB o => (vA &&& vB, o)

/-- R139: bitwise OR; O unchanged. -/
def aluBor : AluOp := fun vA vB o => (vA ||| vB, o)

/-- R140: bitwise exclusive OR; O unchanged. -/
def aluXor : AluOp := fun vA vB o => (vA ^^^ vB, o)

/-- The type of a condition on vA and vB. -/
abbrev Cond := Word → Word → Bool

/-- R151: `A == B`. -/
def condIfe : Cond := fun vA vB => decide (vA = vB)

/-- R152: `A != B`. -/
def condIfn : Cond := fun vA vB => decide (vA ≠ vB)

/-- R153: `A > B`, unsigned. -/
def condIfg : Cond := fun vA vB => decide (vA.toNat > vB.toNat)

/-- R154: `(A & B) != 0`. -/
def condIfb : Cond := fun vA vB => decide (vA &&& vB ≠ 0)

end Sys2Proof.Machine
end

