-- ==== Sys2Proof/Config.lean ====
section
/-! DEFINITION. What is fixed for this hardware (spec/00_scope.md R7) and the one parameter the spec
leaves open (R8). -/

namespace Sys2Proof

/-- Number of words of memory (R7). -/
def Config.memoryWords : Nat := 65536

/-- The largest literal that has an inline operand field (R7, R76). -/
def Config.maxInline : Nat := 31

/-- PC after reset, and the address a program image is loaded from (R7, R48). -/
def Config.resetVector : Word := 0x0000

/-- SP after reset (R7, R24). -/
def Config.resetSP : Word := 0xFFFF

/-- DATA_DIRECTIVE: the spelling the disassembler gives a raw data word (R8, R79, decision D21).
The spec leaves it OPEN, so it has no value here (log entry 8). The core does not depend on it. -/
opaque Config.dataDirective : Text

end Sys2Proof
end

