-- ==== Sys2Proof/Syntax.lean ====
section
/-! DEFINITION. The instructions, one constructor per row of spec/opcode_table.json, and their operands
(spec/30_encoding.md R60 to R66). Meaning is in Machine/ alone. -/

namespace Sys2Proof

/-- The eight general registers (spec/10_state.md R20). -/
inductive Reg where
  | a | b | c | x | y | z | i | j
  deriving DecidableEq, Repr

/-- The twelve operand kinds of R66, each carrying the trailing word it consumed (R70). -/
inductive Operand where
  /-- RegisterDirect, fields 0x00..0x07. -/
  | reg (r : Reg)
  /-- RegisterIndirect, fields 0x08..0x0f. -/
  | regIndirect (r : Reg)
  /-- RegisterIndirectOffset, fields 0x10..0x17, with its trailing word. -/
  | regIndirectOffset (r : Reg) (k : Word)
  /-- Pop, field 0x18. -/
  | pop
  /-- Peek, field 0x19. -/
  | peek
  /-- Push, field 0x1a. -/
  | push
  /-- StackPointer, field 0x1b. -/
  | sp
  /-- ProgramCounter, field 0x1c. -/
  | pc
  /-- OverflowRegister, field 0x1d. -/
  | o
  /-- MemoryDirect, field 0x1e, with its trailing word. -/
  | memDirect (k : Word)
  /-- ImmediateExtended, field 0x1f, with its trailing word. -/
  | immExtended (k : Word)
  /-- ImmediateInline, fields 0x20..0x3f; well formed for 0..31 only (R67, R75). -/
  | immInline (n : Word)
  deriving DecidableEq, Repr

/-- The fifteen basic opcodes (R64). -/
inductive BasicOp where
  | set | add | sub | mul | div | mod | shl | shr | and | bor | xor | ife | ifn | ifg | ifb
  deriving DecidableEq, Repr

/-- The instructions. In a basic instruction `a` is the destination (bits 9:4) and `b` the source
(bits 15:10) (R62). -/
inductive Instr where
  | set (a b : Operand)
  | add (a b : Operand)
  | sub (a b : Operand)
  | mul (a b : Operand)
  | div (a b : Operand)
  | mod (a b : Operand)
  | shl (a b : Operand)
  | shr (a b : Operand)
  | and (a b : Operand)
  | bor (a b : Operand)
  | xor (a b : Operand)
  | ife (a b : Operand)
  | ifn (a b : Operand)
  | ifg (a b : Operand)
  | ifb (a b : Operand)
  /-- JSR, the only recognised extended opcode (R65). -/
  | jsr (x : Operand)
  /-- A reserved extended word, `UnrecognizedExtended(w)` of R70 and R72: extended opcode `e` (not 0x01)
  and the bits `x` of the operand field, which is not decoded. -/
  | reservedExtended (e x : BitVec 6)
  deriving DecidableEq, Repr

/-- The three shapes an opcode word can have (R61 to R63, R72). -/
inductive Shape where
  | basic (op : BasicOp) (a b : Operand)
  | jsr (x : Operand)
  | reserved (e x : BitVec 6)
  deriving DecidableEq, Repr

end Sys2Proof
end

