-- ==== Sys2Proof/Machine/State.lean ====
section
/-! DEFINITION. The complete state of the core (spec/10_state.md), as plain data, and its reset form
(R34). Accessors and operations are in Ops.lean and Operands.lean. -/

namespace Sys2Proof.Machine

/-- The general register file (R20). -/
structure RegFile where
  a : Word
  b : Word
  c : Word
  x : Word
  y : Word
  z : Word
  i : Word
  j : Word
  deriving DecidableEq, Repr

/-- One listed word of memory: its word address and its contents. The unit of address is the word and
the core has no bytes (R30, R42; log entry 6). -/
abbrev Cell := Nat × Word

/-- The 65536-word memory (R30): a list of cells in the canonical form `Memory.wf` of Ops.lean. -/
abbrev Memory := List Cell

/-- The fault codes of R171, as recorded in `State.faulted`. No step of this model answers
`Host.Outcome.fault`: the spec gives the fatal decode condition a state of its own, which is a next
state (log entry 4). -/
inductive Fault where
  /-- Code 1, UNRECOGNIZED_EXTENDED: recorded by `execReservedExtended` when a step decodes a reserved
  extended word (R170). Safe: the effect is the spec's. -/
  | unrecognizedExtended
  /-- Code 2, INVALID_OPERAND_FIELD: raised by nothing, since every operand field is assigned (R71,
  R171). Safe. -/
  | invalidOperandField
  deriving DecidableEq, Repr

/-- Why the model gives no meaning to a request. No instruction is refused. -/
inductive Refusal where
  /-- An instruction without a meaning; no arm of `exec` uses it. Safe: it stops. -/
  | notModelled (mnemonic : String)
  /-- `State.load`: an image of more than 65536 words cannot be loaded and is refused (R191, decision
  D15). Safe: it stops. -/
  | imageTooLong
  /-- `State.loadFile`: a file of odd byte length is refused (R191, decision D15). Safe: it stops. -/
  | oddImageFile
  /-- `State.load` after the first Step since Reset: not one of the host's interactions (R193, decision
  D16). Safe: it stops. -/
  | loadAfterStep
  deriving DecidableEq, Repr

/-- The state of the core: the members listed by R20 to R31 and nothing more. -/
structure State where
  /-- R[0..7] (R20). -/
  regs : RegFile
  /-- The stack pointer (R24). -/
  sp : Word
  /-- The program counter: the address of the next word to fetch (R22). -/
  pc : Word
  /-- The overflow register (R25). -/
  o : Word
  /-- Memory (R30). -/
  mem : Memory
  /-- `skip_next` (R27). -/
  skipNext : Bool
  /-- `last_pc`: the PC at the start of the latest step that passed the halt check (R28). -/
  lastPc : Option Word
  /-- `faulted`: the fault and its info word, once a fatal decode condition has occurred (R29). -/
  faulted : Option (Fault × Word)
  deriving DecidableEq, Repr

/-- The reset form of R34. Every value is the spec's. -/
def State.reset : State :=
  { regs := { a := 0, b := 0, c := 0, x := 0, y := 0, z := 0, i := 0, j := 0 }
    sp := Config.resetSP
    pc := Config.resetVector
    o := 0
    mem := []
    skipNext := false
    lastPc := none
    faulted := none }

end Sys2Proof.Machine
end

