-- ==== Sys2Proof/Machine/Ops.lean ====
section
/-! DEFINITION. The named operations over registers and memory (spec/00_scope.md R11,
spec/20_memory.md), the push of JSR, and taking the one fatal condition (spec/60_exceptions.md R170).
There is no return from it: only Reset leaves it (R176). -/

namespace Sys2Proof.Machine

/-! ### General registers (R20, R21) -/

/-- `R[i]`. -/
def RegFile.get (f : RegFile) : Reg → Word
  | .a => f.a
  | .b => f.b
  | .c => f.c
  | .x => f.x
  | .y => f.y
  | .z => f.z
  | .i => f.i
  | .j => f.j

/-- `R[i] <- v`. -/
def RegFile.set (f : RegFile) (r : Reg) (v : Word) : RegFile :=
  match r with
  | .a => { f with a := v }
  | .b => { f with b := v }
  | .c => { f with c := v }
  | .x => { f with x := v }
  | .y => { f with y := v }
  | .z => { f with z := v }
  | .i => { f with i := v }
  | .j => { f with j := v }

/-! ### Memory (R30, R40, R44) -/

/-- What an address that nothing has written reads as: memory is initialised to 0 (R30, R34). -/
def Memory.unlisted : Word := 0

/-- The word at a key. -/
def Memory.lookup : Memory → Nat → Word
  | [], _ => Memory.unlisted
  | (k', v) :: rest, k => if k = k' then v else Memory.lookup rest k

/-- Put a word at a key, keeping the keys rising and listing no word equal to `Memory.unlisted`. -/
def Memory.put : Memory → Nat → Word → Memory
  | [], k, v => if v = Memory.unlisted then [] else [(k, v)]
  | (k', v') :: rest, k, v =>
    if k < k' then
      if v = Memory.unlisted then (k', v') :: rest else (k, v) :: (k', v') :: rest
    else if k = k' then
      if v = Memory.unlisted then rest else (k, v) :: rest
    else (k', v') :: Memory.put rest k v

/-- Every key is at least `lo`, the keys rise strictly, and no listed word is `Memory.unlisted`. -/
def Memory.wfFrom (lo : Nat) : Memory → Bool
  | [] => true
  | (k, v) :: rest =>
    decide (lo ≤ k) && decide (k < Config.memoryWords) && decide (v ≠ Memory.unlisted)
      && Memory.wfFrom (k + 1) rest

/-- The canonical form: equal memories are equal lists. -/
def Memory.wf (m : Memory) : Bool := Memory.wfFrom 0 m

/-- `MemRead(addr, 1)` (R11, R44). -/
def Memory.read (m : Memory) (addr : Word) : Word := Memory.lookup m addr.toNat

/-- `MemWrite(addr, 1, v)` (R11, R44). -/
def Memory.write (m : Memory) (addr v : Word) : Memory := Memory.put m addr.toNat v

/-- Copy words into memory from an address upward, modulo 2^16. -/
def Memory.writeList (m : Memory) (addr : Word) : List Word → Memory
  | [] => m
  | v :: vs => Memory.writeList (Memory.write m addr v) (addr + 1) vs

/-! ### Writes to the members of State (R11) -/

/-- `R[i] <- v`. -/
def State.setReg (s : State) (r : Reg) (v : Word) : State := { s with regs := s.regs.set r v }
/-- `SP <- v`. -/
def State.setSp (s : State) (v : Word) : State := { s with sp := v }
/-- `PC <- v`. -/
def State.setPc (s : State) (v : Word) : State := { s with pc := v }
/-- `O <- v`. -/
def State.setO (s : State) (v : Word) : State := { s with o := v }
/-- Replace memory. -/
def State.setMem (s : State) (m : Memory) : State := { s with mem := m }
/-- `skip_next <- b`. -/
def State.setSkip (s : State) (b : Bool) : State := { s with skipNext := b }
/-- `last_pc <- p`. -/
def State.setLastPc (s : State) (p : Option Word) : State := { s with lastPc := p }
/-- `faulted <- f`. -/
def State.setFaulted (s : State) (f : Option (Fault × Word)) : State := { s with faulted := f }

/-- `MemRead(addr, 1)`; it has no side effect (R46). -/
def State.readMem (s : State) (addr : Word) : Word := s.mem.read addr

/-- `MemWrite(addr, 1, v)`. -/
def State.writeMem (s : State) (addr v : Word) : State := s.setMem (s.mem.write addr v)

/-- JSR's push: write PC at SP, then decrement SP (R160). Unlike the Push operand, which decrements
first (90_conflicts.md C5). -/
def State.pushReturn (s : State) : State := (s.writeMem s.sp s.pc).setSp (s.sp - 1)

/-! ### The fatal condition (R170, R171, R175) -/

/-- The number of a fault code (R171). -/
def Fault.code : Fault → Nat
  | .unrecognizedExtended => 1
  | .invalidOperandField => 2

/-- Taking a fault: it is recorded with its info word and nothing else changes; PC still holds the
faulting word's address, control goes nowhere and nothing is saved (R170, R175). -/
def State.takeFault (s : State) (f : Fault) (info : Word) : State := s.setFaulted (some (f, info))

end Sys2Proof.Machine
end

