-- ==== Sys2Proof/Machine/Operands.lean ====
section
/-! DEFINITION. The operand multiplexer and the execution of a basic instruction
(spec/40_engine.md R106, R107, R111 to R113). -/

namespace Sys2Proof.Machine

/-- A storage location (R11). -/
inductive Loc where
  | reg (r : Reg)
  | sp
  | pc
  | o
  | mem (addr : Word)
  | lit (v : Word)
  deriving DecidableEq, Repr

/-- `Resolve(operand)` of R112: the state after it and the location. Only Pop and Push change the
state; addresses are computed modulo 2^16. -/
def resolve (op : Operand) (s : State) : State × Loc :=
  match op with
  | .reg r => (s, .reg r)
  | .regIndirect r => (s, .mem (s.regs.get r))
  | .regIndirectOffset r k => (s, .mem (k + s.regs.get r))
  | .pop => (s.setSp (s.sp + 1), .mem s.sp)
  | .peek => (s, .mem s.sp)
  | .push => (s.setSp (s.sp - 1), .mem (s.sp - 1))
  | .sp => (s, .sp)
  | .pc => (s, .pc)
  | .o => (s, .o)
  | .memDirect k => (s, .mem k)
  | .immExtended k => (s, .lit k)
  | .immInline n => (s, .lit n)

/-- `Read(loc)` of R113. -/
def readLoc (l : Loc) (s : State) : Word :=
  match l with
  | .reg r => s.regs.get r
  | .sp => s.sp
  | .pc => s.pc
  | .o => s.o
  | .mem addr => s.readMem addr
  | .lit v => v

/-- `Write(loc, v)` of R113. A write to a literal is discarded. -/
def writeLoc (l : Loc) (v : Word) (s : State) : State :=
  match l with
  | .reg r => s.setReg r v
  | .sp => s.setSp v
  | .pc => s.setPc v
  | .o => s.setO v
  | .mem addr => s.writeMem addr v
  | .lit _ => s

/-- `Read(Resolve(op))`, a "get" (R111): the state after it and the value. -/
def getValue (op : Operand) (s : State) : State × Word :=
  ((resolve op s).1, readLoc (resolve op s).2 (resolve op s).1)

/-- What a basic instruction has in hand before it writes anything (R106). -/
structure Inputs where
  /-- The state after both operands are resolved. -/
  state : State
  /-- Operand A's location. -/
  loc : Loc
  /-- The current value at A's location. -/
  vA : Word
  /-- Operand B's value. -/
  vB : Word
  deriving DecidableEq, Repr

/-- The operand phase of R106: B is resolved and read, then A is resolved, then A's current value is
read. -/
def gather (a b : Operand) (s : State) : Inputs :=
  let gb := getValue b s
  let ra := resolve a gb.1
  { state := ra.1, loc := ra.2, vA := readLoc ra.2 ra.1, vB := gb.2 }

/-- R106 and R107 for the opcodes that write A: O is written first, then the result to A's location. -/
def runAlu (f : AluOp) (a b : Operand) (s : State) : State :=
  let g := gather a b s
  let r := f g.vA g.vB g.state.o
  writeLoc g.loc r.1 (g.state.setO r.2)

/-- R106 for the four conditionals: both operands are resolved, nothing is written, and skip_next is set
when the condition is false. -/
def runTest (c : Cond) (a b : Operand) (s : State) : State :=
  let g := gather a b s
  if c g.vA g.vB then g.state else g.state.setSkip true

end Sys2Proof.Machine
end

