-- ==== Sys2Proof/Machine/Alu.lean ====
section
/-! DEFINITION. The meanings of SET, ADD, SUB, MUL, DIV, MOD, SHL, SHR, AND, BOR and XOR
(spec/41_alu.md). Each runs with PC already past the instruction (spec/40_engine.md R108). -/

namespace Sys2Proof.Machine

/-- SET (R130). -/
def execSet (a b : Operand) (s : State) : Host.Outcome State Fault Refusal := .next (runAlu aluSet a b s)
/-- ADD (R131). -/
def execAdd (a b : Operand) (s : State) : Host.Outcome State Fault Refusal := .next (runAlu aluAdd a b s)
/-- SUB (R132). -/
def execSub (a b : Operand) (s : State) : Host.Outcome State Fault Refusal := .next (runAlu aluSub a b s)
/-- MUL (R133). -/
def execMul (a b : Operand) (s : State) : Host.Outcome State Fault Refusal := .next (runAlu aluMul a b s)
/-- DIV (R134). -/
def execDiv (a b : Operand) (s : State) : Host.Outcome State Fault Refusal := .next (runAlu aluDiv a b s)
/-- MOD (R135). -/
def execMod (a b : Operand) (s : State) : Host.Outcome State Fault Refusal := .next (runAlu aluMod a b s)
/-- SHL (R136). -/
def execShl (a b : Operand) (s : State) : Host.Outcome State Fault Refusal := .next (runAlu aluShl a b s)
/-- SHR (R137). -/
def execShr (a b : Operand) (s : State) : Host.Outcome State Fault Refusal := .next (runAlu aluShr a b s)
/-- AND (R138). -/
def execAnd (a b : Operand) (s : State) : Host.Outcome State Fault Refusal := .next (runAlu aluAnd a b s)
/-- BOR (R139). -/
def execBor (a b : Operand) (s : State) : Host.Outcome State Fault Refusal := .next (runAlu aluBor a b s)
/-- XOR (R140). -/
def execXor (a b : Operand) (s : State) : Host.Outcome State Fault Refusal := .next (runAlu aluXor a b s)

end Sys2Proof.Machine
end

