-- ==== Sys2Proof/Machine/Conditional.lean ====
section
/-! DEFINITION. The meanings of IFE, IFN, IFG and IFB (spec/42_conditional.md). The skip itself is in
Fetch.lean (spec/40_engine.md R104). -/

namespace Sys2Proof.Machine

/-- IFE (R151). -/
def execIfe (a b : Operand) (s : State) : Host.Outcome State Fault Refusal := .next (runTest condIfe a b s)
/-- IFN (R152). -/
def execIfn (a b : Operand) (s : State) : Host.Outcome State Fault Refusal := .next (runTest condIfn a b s)
/-- IFG (R153). -/
def execIfg (a b : Operand) (s : State) : Host.Outcome State Fault Refusal := .next (runTest condIfg a b s)
/-- IFB (R154). -/
def execIfb (a b : Operand) (s : State) : Host.Outcome State Fault Refusal := .next (runTest condIfb a b s)

end Sys2Proof.Machine
end

