-- ==== Sys2Proof/WellFormed.lean ====
section
/-! DEFINITION. Which terms of Syntax stand for an encoding of spec/30_encoding.md. -/

namespace Sys2Proof

/-- An inline immediate holds 0..31 (R67, R75); every other operand is well formed. -/
def Operand.wf : Operand → Bool
  | .immInline n => decide (n.toNat ≤ Config.maxInline)
  | .reg _ | .regIndirect _ | .regIndirectOffset _ _ | .pop | .peek | .push | .sp | .pc | .o
  | .memDirect _ | .immExtended _ => true

/-- Well formed: the operands are, and a reserved extended word does not have JSR's code (R65, R72). -/
def Instr.wf : Instr → Bool
  | .set a b | .add a b | .sub a b | .mul a b | .div a b | .mod a b | .shl a b | .shr a b
  | .and a b | .bor a b | .xor a b | .ife a b | .ifn a b | .ifg a b | .ifb a b => a.wf && b.wf
  | .jsr x => x.wf
  | .reservedExtended e _ => decide (e ≠ 0x01)

end Sys2Proof
end

