-- ==== Sys2Proof/Decode.lean ====
section
/-! DEFINITION. The instruction codec of spec/30_encoding.md: the tables of R62 to R66, decoding (R70)
and its inverse (R75). -/

namespace Sys2Proof

/-! ### Fields of the opcode word (R62, R63) -/

/-- `w[3:0]`, the basic opcode, 0 for the extended format. -/
def opcodeField (w : Word) : BitVec 4 := w.extractLsb' 0 4

/-- `w[9:4]`: operand A's field, or the extended opcode. -/
def fieldA (w : Word) : BitVec 6 := w.extractLsb' 4 6

/-- `w[15:10]`: operand B's field, or the sole operand's. -/
def fieldB (w : Word) : BitVec 6 := w.extractLsb' 10 6

/-! ### Tables (R20, R64) -/

/-- The register with a 3-bit index (R20). -/
def Reg.ofIndex : Fin 8 → Reg
  | 0 => .a
  | 1 => .b
  | 2 => .c
  | 3 => .x
  | 4 => .y
  | 5 => .z
  | 6 => .i
  | 7 => .j

/-- The 3-bit index of a register (R20). -/
def Reg.index : Reg → Fin 8
  | .a => 0
  | .b => 1
  | .c => 2
  | .x => 3
  | .y => 4
  | .z => 5
  | .i => 6
  | .j => 7

/-- The 4-bit code of a basic opcode (R64). -/
def BasicOp.code : BasicOp → BitVec 4
  | .set => 0x1
  | .add => 0x2
  | .sub => 0x3
  | .mul => 0x4
  | .div => 0x5
  | .mod => 0x6
  | .shl => 0x7
  | .shr => 0x8
  | .and => 0x9
  | .bor => 0xA
  | .xor => 0xB
  | .ife => 0xC
  | .ifn => 0xD
  | .ifg => 0xE
  | .ifb => 0xF

/-- The basic opcodes in the order of R64's table. -/
def basicOps : List BasicOp :=
  [.set, .add, .sub, .mul, .div, .mod, .shl, .shr, .and, .bor, .xor, .ife, .ifn, .ifg, .ifb]

/-- The basic opcode with a code; none for 0, the extended format (R61, R64). -/
def BasicOp.ofCode (c : BitVec 4) : Option BasicOp := basicOps.find? (fun op => op.code == c)

/-- JSR's extended opcode (R65). -/
def jsrCode : BitVec 6 := 0x01

/-- The shape of an instruction. -/
def Instr.shape : Instr → Shape
  | .set a b => .basic .set a b
  | .add a b => .basic .add a b
  | .sub a b => .basic .sub a b
  | .mul a b => .basic .mul a b
  | .div a b => .basic .div a b
  | .mod a b => .basic .mod a b
  | .shl a b => .basic .shl a b
  | .shr a b => .basic .shr a b
  | .and a b => .basic .and a b
  | .bor a b => .basic .bor a b
  | .xor a b => .basic .xor a b
  | .ife a b => .basic .ife a b
  | .ifn a b => .basic .ifn a b
  | .ifg a b => .basic .ifg a b
  | .ifb a b => .basic .ifb a b
  | .jsr x => .jsr x
  | .reservedExtended e x => .reserved e x

/-- The instruction of a basic opcode and its operands. -/
def BasicOp.instr (op : BasicOp) (a b : Operand) : Instr :=
  match op with
  | .set => .set a b
  | .add => .add a b
  | .sub => .sub a b
  | .mul => .mul a b
  | .div => .div a b
  | .mod => .mod a b
  | .shl => .shl a b
  | .shr => .shr a b
  | .and => .and a b
  | .bor => .bor a b
  | .xor => .xor a b
  | .ife => .ife a b
  | .ifn => .ifn a b
  | .ifg => .ifg a b
  | .ifb => .ifb a b

/-- Whether this is a reserved extended word, which spells no instruction and faults (R72). -/
def Instr.isReserved (i : Instr) : Bool :=
  match i.shape with
  | .reserved _ _ => true
  | .basic _ _ _ | .jsr _ => false

/-! ### Decoding (R66 to R74) -/

/-- `t(f)`: the number of trailing words a field needs (R66). -/
def trailing (f : BitVec 6) : Nat :=
  if (0x10 ≤ f.toNat ∧ f.toNat ≤ 0x17) ∨ f.toNat = 0x1e ∨ f.toNat = 0x1f then 1 else 0

/-- `DecodeOperand` of R70: the operand of a field, given the next unused trailing word. It never fails
(R71). -/
def decodeOperand (f : BitVec 6) (next : Word) : Operand :=
  let n := f.toNat
  if n ≤ 0x07 then .reg (Reg.ofIndex (Fin.ofNat 8 n))
  else if n ≤ 0x0f then .regIndirect (Reg.ofIndex (Fin.ofNat 8 (n - 0x08)))
  else if n ≤ 0x17 then .regIndirectOffset (Reg.ofIndex (Fin.ofNat 8 (n - 0x10))) next
  else if n = 0x18 then .pop
  else if n = 0x19 then .peek
  else if n = 0x1a then .push
  else if n = 0x1b then .sp
  else if n = 0x1c then .pc
  else if n = 0x1d then .o
  else if n = 0x1e then .memDirect next
  else if n = 0x1f then .immExtended next
  else .immInline (narrow (n - 0x20))

/-- Trailing words after an opcode word (R74); none after an unrecognised extended word (R70). -/
def trailingCount (w : Word) : Nat :=
  if opcodeField w = 0 then
    if fieldA w = jsrCode then trailing (fieldB w) else 0
  else trailing (fieldA w) + trailing (fieldB w)

/-- `DecodeInstruction` of R70, given the opcode word and the two words after it: the instruction and
its length. A word is taken only by the operand that needs it (R68). The condition
`UnrecognizedExtended(w)` is the instruction `reservedExtended`, whose length is 0: PC is not advanced
past it (R74, R103). -/
def decodeInstr (w t1 t2 : Word) : Instr × Nat :=
  match BasicOp.ofCode (opcodeField w) with
  | none =>
    if fieldA w = jsrCode then (.jsr (decodeOperand (fieldB w) t1), 1 + trailing (fieldB w))
    else (.reservedExtended (fieldA w) (fieldB w), 0)
  | some op =>
    let a := decodeOperand (fieldA w) t1
    let b := decodeOperand (fieldB w) (if trailing (fieldA w) = 0 then t1 else t2)
    (op.instr a b, 1 + trailing (fieldA w) + trailing (fieldB w))

/-- Why a finite stream of words does not start with an instruction. The core's memory never ends
(R69), so only the disassembler meets these (decision D22; the names are the model's, log entry 18). -/
inductive DecodeError where
  /-- No word is left. -/
  | endOfStream
  /-- A trailing word of this opcode word lies past the end of the stream. -/
  | truncated (w : Word)
  deriving DecidableEq, Repr

/-- Decoding from a finite stream: the first instruction and the words after it. A reserved extended
word is taken alone (R86). -/
def decode : List Word → Except DecodeError (Instr × List Word)
  | [] => .error .endOfStream
  | w :: rest =>
    if rest.length < trailingCount w then .error (.truncated w)
    else .ok ((decodeInstr w (rest.getD 0 0) (rest.getD 1 0)).1, rest.drop (trailingCount w))

/-! ### Encoding (R62, R63, R75) -/

/-- `w = o | (a << 4) | (b << 10)` (R62); with `o = 0` the extended form of R63. -/
def packWord (o : BitVec 4) (a b : BitVec 6) : Word :=
  o.setWidth 16 ||| (a.setWidth 16 <<< 4) ||| (b.setWidth 16 <<< 10)

/-- `EncodeOperand` of R75: an operand's field and its trailing word, if it has one. -/
def encodeOperand : Operand → BitVec 6 × List Word
  | .reg r => (BitVec.ofNat 6 r.index.val, [])
  | .regIndirect r => (BitVec.ofNat 6 (0x08 + r.index.val), [])
  | .regIndirectOffset r k => (BitVec.ofNat 6 (0x10 + r.index.val), [k])
  | .pop => (0x18, [])
  | .peek => (0x19, [])
  | .push => (0x1a, [])
  | .sp => (0x1b, [])
  | .pc => (0x1c, [])
  | .o => (0x1d, [])
  | .memDirect k => (0x1e, [k])
  | .immExtended k => (0x1f, [k])
  | .immInline n => (BitVec.ofNat 6 (0x20 + n.toNat), [])

/-- The opcode word of a reserved extended instruction: the info word of its fault (R170). -/
def reservedWord (e x : BitVec 6) : Word := packWord 0 e x

/-- The words of a well-formed instruction: `EncodeBasic` and `EncodeJSR` of R75, A's trailing word
before B's (R68), and a reserved extended word as it stands. -/
def encode (i : Instr) : List Word :=
  match i.shape with
  | .basic op a b =>
    packWord op.code (encodeOperand a).1 (encodeOperand b).1
      :: ((encodeOperand a).2 ++ (encodeOperand b).2)
  | .jsr x => packWord 0 jsrCode (encodeOperand x).1 :: (encodeOperand x).2
  | .reserved e x => [reservedWord e x]

/-! ### The opcode table's numbering of bits -/

/-- The three words of an instruction whose bits are `w`, bit 0 the least significant bit of the first
word, every bit from `nbits` on being 0. -/
def tableWords (nbits w : Nat) : List Word :=
  let v := w % 2 ^ nbits
  [narrow v, narrow (v >>> 16), narrow (v >>> 32)]

/-- What the decoder reads from the words `tableWords` lays out. -/
def decodeTableWord (nbits w : Nat) : Option Instr :=
  match decode (tableWords nbits w) with
  | .ok (i, _) => some i
  | .error _ => none

end Sys2Proof
end

