-- ==== Sys2Proof/Machine/Extended.lean ====
section
/-! DEFINITION. The meanings of the extended format: JSR (spec/43_jsr.md) and the reserved extended
words (spec/60_exceptions.md R170). -/

namespace Sys2Proof.Machine

/-- JSR (R160): the operand is resolved and read, then the return address (PC, already past JSR) is
pushed, then PC is set. -/
def execJsr (x : Operand) (s : State) : Host.Outcome State Fault Refusal :=
  .next ((getValue x s).1.pushReturn.setPc (getValue x s).2)

/-- A reserved extended word (R170): the fault UNRECOGNIZED_EXTENDED with the word as its info. It runs
with PC still at the word (R103). -/
def execReservedExtended (e x : BitVec 6) (s : State) : Host.Outcome State Fault Refusal :=
  .next (s.takeFault .unrecognizedExtended (reservedWord e x))

end Sys2Proof.Machine
end

