-- ==== Sys2Proof/Machine/Fetch.lean ====
section
/-! DEFINITION. What a step does around the execution of an instruction: the halt check, the fetch, the
advance of PC and the skip (spec/40_engine.md R102 to R104, R110). -/

namespace Sys2Proof.Machine

/-- The core is faulted (R29). -/
def State.isFaulted (s : State) : Bool := s.faulted.isSome

/-- The halt check of R102 finds no progress. -/
def State.isHalted (s : State) : Bool := decide (s.lastPc = some s.pc)

/-- The word `k` words past the address in PC, modulo 2^16 (R69). -/
def State.fetchWord (s : State) (k : Word) : Word := s.readMem (s.pc + k)

/-- `DecodeInstruction(PC)`: the instruction at PC and its length (R70, R103). -/
def State.fetch (s : State) : Instr × Nat :=
  decodeInstr (s.fetchWord 0) (s.fetchWord 1) (s.fetchWord 2)

/-- `last_pc <- PC` (R102). -/
def State.markPc (s : State) : State := s.setLastPc (some s.pc)

/-- `PC <- PC +16 len` (R103). -/
def State.advance (s : State) (len : Nat) : State := s.setPc (s.pc + narrow len)

/-- What is left of a step after its checks. -/
inductive Prepared where
  /-- The step ends in this state. -/
  | done (s : State)
  /-- The instruction is executed from this state. -/
  | run (i : Instr) (s : State)
  deriving DecidableEq, Repr

/-- A step up to the execution of its instruction, in the order of R109 and R174: a faulted or halted
core does not change (R110); a reserved extended word is run without an advance of PC and before the
skip is looked at (R103); a pending skip is cleared and ends the step (R104). -/
def State.prepare (s : State) : Prepared :=
  if s.isFaulted then .done s
  else if s.isHalted then .done s
  else
    let i := s.fetch.1
    if i.isReserved then .run i s.markPc
    else
      let t := s.markPc.advance s.fetch.2
      if t.skipNext then .done (t.setSkip false) else .run i t

/-- Store words at PC and clear what would keep the very next step from running them: a recorded fault,
a halt and a pending skip (log entry 5). -/
def State.placeAtPc (s : State) (ws : List Word) : State :=
  let t := (s.setMem (s.mem.writeList s.pc ws)).setFaulted none
  let u := t.setSkip false
  if u.isHalted then u.setLastPc none else u

end Sys2Proof.Machine
end

