-- ==== Sys2Proof/Machine/Step.lean ====
section
/-! DEFINITION. The step of the machine (spec/40_engine.md R109). -/

namespace Sys2Proof.Machine

/-- One Step transaction (R109). Its status is `stepStatus` of Interface.lean. -/
def step (s : State) : Host.Outcome State Fault Refusal :=
  match s.prepare with
  | .done t => .next t
  | .run i t => exec i t

/-- The state in which the very next step fetches and runs the instruction whose table bits are `w`. -/
def State.withFetchWord (s : State) (nbits w : Nat) : State := s.placeAtPc (tableWords nbits w)

end Sys2Proof.Machine
end

