-- ==== Sys2Proof/Machine/Text.lean ====
section
/-! DEFINITION. The toolchain's tokens and their text: operand syntax, numbers, mnemonics, rendering
(spec/30_encoding.md R66, R76, R78, R79, R87). Splitting a source file into lines and whitespace-separated
tokens is an external collaborator (spec/00_scope.md R6). -/

namespace Sys2Proof.Machine

/-- What an `Op` token names (R64, R65). -/
inductive Mnemonic where
  | basic (op : BasicOp)
  | jsr
  deriving DecidableEq, Repr

/-- A token of the toolchain's intermediate form (R81, R83, R85, R86). -/
inductive Token where
  | op (m : Mnemonic)
  | operand (x : Operand)
  /-- A label used as an operand (R79). -/
  | labelRef (name : Text)
  /-- A label definition `:name` (R78). -/
  | label (name : Text)
  /-- A word that spells no instruction (R86). -/
  | data (w : Word)
  | comment (text : Text)
  | newline
  deriving DecidableEq, Repr

/-- The assembler's errors (R84), with the names of 90_conflicts.md C7. All are fatal. -/
inductive AsmError where
  /-- UnknownMnemonic, a SyntaxError. -/
  | unknownMnemonic
  /-- UnknownOperandToken, a SyntaxError; also a literal out of range (decision D20). -/
  | unknownOperandToken
  /-- UndefinedLabel, or UndefinedLabelError (R83). -/
  | undefinedLabel (name : Text)
  /-- MalformedOperandField, or MalformedOperandCount: wrong argument count (R84). -/
  | malformedOperandCount
  /-- UnrecognizedExtended: a word no valid source produces (R72). -/
  | unrecognizedExtended (w : Word)
  deriving DecidableEq, Repr

/-! ### Names -/

/-- A letter in upper case: mnemonics, registers and keywords are accepted in any case (decision D24). -/
def upperChar (c : Char) : Char := if 'a' ≤ c ∧ c ≤ 'z' then Char.ofNat (c.toNat - 32) else c

/-- A text in upper case. -/
def upperText (t : Text) : Text := t.map upperChar

/-- The name of a register (R20). -/
def regName : Reg → Text
  | .a => ['A']
  | .b => ['B']
  | .c => ['C']
  | .x => ['X']
  | .y => ['Y']
  | .z => ['Z']
  | .i => ['I']
  | .j => ['J']

/-- The registers in the order of their indices (R20). -/
def allRegs : List Reg := [.a, .b, .c, .x, .y, .z, .i, .j]

/-- The register a text names, in any case. -/
def parseReg (t : Text) : Option Reg := allRegs.find? (fun r => regName r == upperText t)

/-- The stack and control pseudo-operands (R78, R79). -/
def keywords : List (Text × Operand) :=
  [("POP".toList, .pop), ("PEEK".toList, .peek), ("PUSH".toList, .push), ("SP".toList, .sp),
   ("PC".toList, .pc), ("O".toList, .o)]

/-- The name of a mnemonic (R64, R65). -/
def Mnemonic.name : Mnemonic → Text
  | .basic .set => "SET".toList
  | .basic .add => "ADD".toList
  | .basic .sub => "SUB".toList
  | .basic .mul => "MUL".toList
  | .basic .div => "DIV".toList
  | .basic .mod => "MOD".toList
  | .basic .shl => "SHL".toList
  | .basic .shr => "SHR".toList
  | .basic .and => "AND".toList
  | .basic .bor => "BOR".toList
  | .basic .xor => "XOR".toList
  | .basic .ife => "IFE".toList
  | .basic .ifn => "IFN".toList
  | .basic .ifg => "IFG".toList
  | .basic .ifb => "IFB".toList
  | .jsr => "JSR".toList

/-- Every mnemonic. -/
def mnemonics : List Mnemonic := basicOps.map .basic ++ [.jsr]

/-- The mnemonic a text spells, in any case (decision D24). -/
def parseMnemonic (t : Text) : Option Mnemonic := mnemonics.find? (fun m => Mnemonic.name m == upperText t)

/-! ### Numbers (R78, R87) -/

/-- A lower-case hexadecimal digit. -/
def hexDigit (n : Nat) : Char := if n < 10 then Char.ofNat (48 + n) else Char.ofNat (87 + n)

/-- The hexadecimal digits of `n` without padding, in front of `acc`; `fuel` bounds their number. -/
def hexDigits : Nat → Nat → Text → Text
  | 0, _, acc => acc
  | fuel + 1, n, acc =>
    if n / 16 = 0 then hexDigit (n % 16) :: acc else hexDigits fuel (n / 16) (hexDigit (n % 16) :: acc)

/-- `0x%x` of a word (R87). -/
def renderWord (w : Word) : Text := '0' :: 'x' :: hexDigits 4 w.toNat []

/-- The value of a digit in a base up to 16, letters in any case. -/
def digitValue (base : Nat) (c : Char) : Option Nat :=
  let n := (upperChar c).toNat
  let v := if 48 ≤ n ∧ n ≤ 57 then n - 48 else if 65 ≤ n ∧ n ≤ 70 then n - 55 else 16
  if v < base then some v else none

/-- The number digits spell after `acc`. -/
def parseDigits (base : Nat) : Nat → Text → Option Nat
  | acc, [] => some acc
  | acc, c :: cs =>
    match digitValue base c with
    | none => none
    | some d => parseDigits base (acc * base + d) cs

/-- An integer literal, hexadecimal with `0x` or decimal (R78). -/
def parseNumber (t : Text) : Option Nat :=
  match t with
  | [] => none
  | ['0', 'x'] => none
  | '0' :: 'x' :: digits => parseDigits 16 0 digits
  | digits => parseDigits 10 0 digits

/-- A literal that fits a word (decision D20). -/
def parseLiteral (t : Text) : Option Word :=
  match parseNumber t with
  | none => none
  | some n => if n < Config.memoryWords then some (narrow n) else none

/-- The operand of a literal: inline for 0..31, extended above (R76). -/
def literalOperand (n : Word) : Operand :=
  if n.toNat ≤ Config.maxInline then .immInline n else .immExtended n

/-! ### Operands (R78, R79, R87) -/

/-- Split at the first `+`. -/
def splitPlus : Text → Option (Text × Text)
  | [] => none
  | c :: cs =>
    if c = '+' then some ([], cs)
    else match splitPlus cs with
      | none => none
      | some (l, r) => some (c :: l, r)

/-- The inside of a bracketed operand: `literal+reg`, `reg` or `literal`. `reg+literal` is not accepted
(decision D24). -/
def parseBracket (t : Text) : Option Operand :=
  match splitPlus t with
  | some (l, r) =>
    match parseLiteral l, parseReg r with
    | some k, some reg => some (.regIndirectOffset reg k)
    | _, _ => none
  | none =>
    match parseReg t with
    | some r => some (.regIndirect r)
    | none => (parseLiteral t).map .memDirect

/-- An identifier: letters only ("a bare alphabetic identifier", R78). -/
def isIdentifier (t : Text) : Bool := !t.isEmpty && t.all Char.isAlpha

/-- Operand text to an operand token (R79). -/
def parseOperand (t : Text) : Except AsmError Token :=
  match t with
  | '[' :: inside =>
    if inside.getLast? = some ']' then
      match parseBracket inside.dropLast with
      | some x => .ok (.operand x)
      | none => .error .unknownOperandToken
    else .error .unknownOperandToken
  | _ =>
    match parseReg t with
    | some r => .ok (.operand (.reg r))
    | none =>
      match keywords.lookup (upperText t) with
      | some x => .ok (.operand x)
      | none =>
        match parseLiteral t with
        | some n => .ok (.operand (literalOperand n))
        | none => if isIdentifier t then .ok (.labelRef t) else .error .unknownOperandToken

/-- An operand as text (R66, R87). -/
def renderOperand : Operand → Text
  | .reg r => regName r
  | .regIndirect r => '[' :: regName r ++ [']']
  | .regIndirectOffset r k => '[' :: renderWord k ++ '+' :: regName r ++ [']']
  | .pop => "POP".toList
  | .peek => "PEEK".toList
  | .push => "PUSH".toList
  | .sp => "SP".toList
  | .pc => "PC".toList
  | .o => "O".toList
  | .memDirect k => '[' :: renderWord k ++ [']']
  | .immExtended k => renderWord k
  | .immInline n => renderWord n

/-- A line of token texts as tokens, `seenOp` once its mnemonic has been read: label definitions anywhere,
a comment from a token that starts with `;` to the end of the line, a mnemonic, then operands (R78).
DESIGN CHOICE: the name of a label definition is letters only, as R78 says of a reference, and a definition
with another name or none is UnknownOperandToken (log entry 17). -/
def parseLine : Bool → List Text → Except AsmError (List Token)
  | _, [] => .ok [.newline]
  | seenOp, t :: ts =>
    match t with
    | ';' :: text => .ok [.comment (text ++ (ts.map (fun u => ' ' :: u)).flatten), .newline]
    | ':' :: name =>
      if isIdentifier name then (parseLine seenOp ts).map (fun rest => .label name :: rest)
      else .error .unknownOperandToken
    | _ =>
      if seenOp then
        match parseOperand t with
        | .ok tok => (parseLine true ts).map (fun rest => tok :: rest)
        | .error e => .error e
      else
        match parseMnemonic t with
        | some m => (parseLine true ts).map (fun rest => .op m :: rest)
        | none => .error .unknownMnemonic

/-- The lines of a source as one token stream. -/
def parseLines : List (List Text) → Except AsmError (List Token)
  | [] => .ok []
  | l :: ls =>
    match parseLine false l, parseLines ls with
    | .ok toks, .ok rest => .ok (toks ++ rest)
    | .error e, _ => .error e
    | .ok _, .error e => .error e

/-- The texts of the tokens, a list for each line (R87). DESIGN CHOICE: a data word stands on a line of its
own (log entry 9), and its value follows the directive as a second text, `0x%x` as for an immediate, where
the spec gives Data's value no number format (log entry 16). `line` holds the texts of the open line. -/
def renderFrom : List Text → List Token → List (List Text)
  | line, [] => if line.isEmpty then [] else [line]
  | line, tok :: toks =>
    match tok with
    | .op m => renderFrom (line ++ [Mnemonic.name m]) toks
    | .operand x => renderFrom (line ++ [renderOperand x]) toks
    | .labelRef name => renderFrom (line ++ [name]) toks
    | .label name => renderFrom (line ++ [':' :: name]) toks
    | .comment text => renderFrom (line ++ [';' :: text]) toks
    | .newline => line :: renderFrom [] toks
    | .data w =>
      if line.isEmpty then [Config.dataDirective, renderWord w] :: renderFrom [] toks
      else line :: [Config.dataDirective, renderWord w] :: renderFrom [] toks

/-- The rendering of a token stream (R87). -/
def renderTokens (toks : List Token) : List (List Text) := renderFrom [] toks

end Sys2Proof.Machine
end

