-- ==== Sys2Proof/Machine/Assembler.lean ====
section
/-! DEFINITION. The two-pass assembler of spec/30_encoding.md R80 to R84. -/

namespace Sys2Proof.Machine

/-! ### Labels (R80 to R82) -/

/-- The label table: each name once, with its word offset (R80). -/
abbrev LabelTable := List (Text × Nat)

/-- `labels[name] <- offset`. -/
def setLabel : LabelTable → Text → Nat → LabelTable
  | [], name, offset => [(name, offset)]
  | (n, k) :: rest, name, offset =>
    if n = name then (name, offset) :: rest else (n, k) :: setLabel rest name offset

/-- The variables of the offset pass (R81). -/
structure OffsetPass where
  counter : Nat
  labels : LabelTable
  skews : List Nat
  hasOp : Bool
  first : Bool
  deriving DecidableEq, Repr

/-- Trailing words of an operand token (R66, R76). -/
def operandWords (x : Operand) : Nat := (encodeOperand x).2.length

/-- One round of R81's loop. -/
def offsetToken (p : OffsetPass) (tok : Token) : OffsetPass :=
  match tok with
  | .newline =>
    { p with counter := if p.hasOp then p.counter + 1 else p.counter, hasOp := false, first := true }
  | .op _ => { p with hasOp := true, first := false }
  | .label name =>
    if p.first then { p with labels := setLabel p.labels name p.counter, first := false }
    else { p with skews := p.skews ++ [p.counter], first := false }
  | .operand x => { p with counter := p.counter + operandWords x, first := false }
  | .labelRef _ => { p with counter := p.counter + 1, first := false }
  | .data _ | .comment _ => { p with first := false }

/-- The offset pass (R81). -/
def offsetPass (toks : List Token) : OffsetPass :=
  toks.foldl offsetToken { counter := 0, labels := [], skews := [], hasOp := false, first := true }

/-- Insert into an ascending list. -/
def insertAscending (n : Nat) : List Nat → List Nat
  | [] => [n]
  | m :: ms => if n ≤ m then n :: m :: ms else m :: insertAscending n ms

/-- `sort_ascending`. -/
def sortAscending (ns : List Nat) : List Nat := ns.foldr insertAscending []

/-- Shift every label past one skew (R82). -/
def applySkew (labels : LabelTable) (s : Nat) : LabelTable :=
  labels.map (fun e => if e.2 > s then (e.1, e.2 + 1) else e)

/-- Skew correction: the skews ascending, one at a time (R82, decision D25). -/
def applySkews (labels : LabelTable) (skews : List Nat) : LabelTable :=
  (sortAscending skews).foldl applySkew labels

/-- The label table of a token stream. -/
def labelTable (toks : List Token) : LabelTable :=
  applySkews (offsetPass toks).labels (offsetPass toks).skews

/-! ### Encoding (R83, R84) -/

/-- The words of a mnemonic with its operands; the count of operands is checked (R84). -/
def encodeOp (m : Mnemonic) (xs : List Operand) : Except AsmError (List Word) :=
  match m, xs with
  | .basic op, [a, b] =>
    if (op.instr a b).wf then .ok (encode (op.instr a b)) else .error .unknownOperandToken
  | .jsr, [x] => if (Instr.jsr x).wf then .ok (encode (.jsr x)) else .error .unknownOperandToken
  | .basic _, _ | .jsr, _ => .error .malformedOperandCount

/-- The words of the instruction being collected, if there is one. -/
def flushOp : Option (Mnemonic × List Operand) → Except AsmError (List Word)
  | none => .ok []
  | some (m, xs) => encodeOp m xs

/-- Add an operand to the instruction being collected. -/
def addOperand (pending : Option (Mnemonic × List Operand)) (x : Operand) :
    Except AsmError (Option (Mnemonic × List Operand)) :=
  match pending with
  | none => .error .unknownMnemonic
  | some (m, xs) => .ok (some (m, xs ++ [x]))

/-- A label reference as an operand: always the extended form (R76, R83). -/
def labelOperand (labels : LabelTable) (name : Text) : Except AsmError Operand :=
  match labels.lookup name with
  | none => .error (.undefinedLabel name)
  | some k => if k < Config.memoryWords then .ok (.immExtended (narrow k)) else .error .unknownOperandToken

/-- The encoding pass: each `Op` token starts an instruction, a `Newline` token closes it, and the words
come in source order (R81, R83). -/
def encodePass (labels : LabelTable) :
    Option (Mnemonic × List Operand) → List Token → Except AsmError (List Word)
  | pending, [] => flushOp pending
  | pending, tok :: toks =>
    match tok with
    | .op m =>
      match flushOp pending, encodePass labels (some (m, [])) toks with
      | .ok ws, .ok rest => .ok (ws ++ rest)
      | .error e, _ => .error e
      | .ok _, .error e => .error e
    | .newline =>
      match flushOp pending, encodePass labels none toks with
      | .ok ws, .ok rest => .ok (ws ++ rest)
      | .error e, _ => .error e
      | .ok _, .error e => .error e
    | .operand x =>
      match addOperand pending x with
      | .ok p => encodePass labels p toks
      | .error e => .error e
    | .labelRef name =>
      match labelOperand labels name with
      | .error e => .error e
      | .ok x =>
        match addOperand pending x with
        | .ok p => encodePass labels p toks
        | .error e => .error e
    | .label _ | .comment _ => encodePass labels pending toks
    | .data w => .error (.unrecognizedExtended w)

/-- Assembly of a token stream (R81 to R83). An error leaves no output (R84). -/
def assemble (toks : List Token) : Except AsmError (List Word) :=
  encodePass (labelTable toks) none toks

/-- Assembly of a source, given as the tokenizer's lines of token texts (R78, R79). -/
def assembleText (lines : List (List Text)) : Except AsmError (List Word) :=
  match parseLines lines with
  | .ok toks => assemble toks
  | .error e => .error e

end Sys2Proof.Machine
end

