-- ==== Sys2Proof/Machine/Disassembler.lean ====
section
/-! DEFINITION. The disassembler of spec/30_encoding.md R85 to R87. -/

namespace Sys2Proof.Machine

/-- The tokens of one instruction: its `Op` token, its operand tokens A then B, and a `Newline` token
(R85). A reserved extended word is one raw `Data` token (R86; log entry 9). -/
def instrTokens (i : Instr) : List Token :=
  match i.shape with
  | .basic op a b => [.op (.basic op), .operand a, .operand b, .newline]
  | .jsr x => [.op .jsr, .operand x, .newline]
  | .reserved e x => [.data (reservedWord e x)]

/-- The walk of R85, for at most `fuel` instructions. -/
def disassembleFrom : Nat → List Word → Except DecodeError (List Token)
  | _, [] => .ok []
  | 0, _ :: _ => .error .endOfStream
  | fuel + 1, w :: rest =>
    match decode (w :: rest) with
    | .error e => .error e
    | .ok (i, after) =>
      match disassembleFrom fuel after with
      | .ok toks => .ok (instrTokens i ++ toks)
      | .error e => .error e

/-- Disassembly of a word stream. It fails, without partial output, when a trailing word lies past the
end (decision D22). Every instruction takes at least one word, so the number of words bounds the walk. -/
def disassemble (ws : List Word) : Except DecodeError (List Token) := disassembleFrom ws.length ws

/-- Disassembly to text, a list of token texts for each line (R87). -/
def disassembleText (ws : List Word) : Except DecodeError (List (List Text)) :=
  (disassemble ws).map renderTokens

end Sys2Proof.Machine
end

