-- ==== Sys2Proof/Machine/Interface.lean ====
section
/-! DEFINITION. The host's interface: Reset, Load, Step with its status, Observe, and the driving loop
(spec/40_engine.md R100, R101; spec/70_reset_and_hazards.md R190 to R193). -/

namespace Sys2Proof.Machine

/-- The status a Step returns (R101). -/
inductive Status where
  | running
  | halted
  | faulted
  deriving DecidableEq, Repr

/-- R101: FAULTED if the core is faulted, by this step or an earlier one; HALTED if the step found no
progress; RUNNING otherwise. `before` and `after` are the states around the step. -/
def stepStatus (before after : State) : Status :=
  if after.isFaulted then .faulted else if before.isHalted then .halted else .running

/-- The Step transaction with the status it returns (R100). -/
def transaction (s : State) : Host.Outcome (State × Status) Fault Refusal :=
  match step s with
  | .next t => .next (t, stepStatus s t)
  | .fault r => .fault r
  | .refused r => .refused r

/-- The output `fault_code` (R100, R171). -/
def State.faultCode (s : State) : Option Nat := s.faulted.map (fun f => f.1.code)

/-- The output `fault_info` (R100, R171). -/
def State.faultInfo (s : State) : Option Word := s.faulted.map (fun f => f.2)

/-- The word of a big-endian pair of image bytes (R42). -/
def wordOfBytes (high low : Byte) : Word := narrow (high.toNat * 256 + low.toNat)

/-- The words of a program image's bytes; none for an odd number of bytes (R42, R191). -/
def imageWords : List Byte → Option (List Word)
  | [] => some []
  | [_] => none
  | high :: low :: rest => (imageWords rest).map (fun ws => wordOfBytes high low :: ws)

/-- A first Step since Reset has been made: every step that is not faulted or halted records PC in
last_pc, and the first one is neither (R102). -/
def State.hasStepped (s : State) : Bool := s.lastPc.isSome || s.isFaulted

/-- `Load(image)` (R191, R193): memory word `k` becomes `image[k]`. Refused for an image longer than
memory and after the first Step. -/
def State.load (s : State) (image : List Word) : Host.Outcome State Fault Refusal :=
  if s.hasStepped then .refused .loadAfterStep
  else if Config.memoryWords < image.length then .refused .imageTooLong
  else .next (s.setMem (s.mem.writeList Config.resetVector image))

/-- `Load` of a binary file's bytes (R191). -/
def State.loadFile (s : State) (bytes : List Byte) : Host.Outcome State Fault Refusal :=
  match imageWords bytes with
  | none => .refused .oddImageFile
  | some ws => s.load ws

/-- The host's interactions (R193). -/
inductive Request where
  | reset
  | load (image : List Word)
  | step
  | observe
  deriving DecidableEq, Repr

/-- What a request leaves and returns (R193): the state, which is also what the host may observe, and
the status if it was a Step. -/
def perform (r : Request) (s : State) : Host.Outcome (State × Option Status) Fault Refusal :=
  match r with
  | .reset => .next (State.reset, none)
  | .observe => .next (s, none)
  | .load image =>
    match s.load image with
    | .next t => .next (t, none)
    | .fault e => .fault e
    | .refused e => .refused e
  | .step =>
    match transaction s with
    | .next (t, st) => .next (t, some st)
    | .fault e => .fault e
    | .refused e => .refused e

/-- How a run of the driving loop ends (R193). -/
inductive RunEnd where
  /-- A Step returned HALTED: the only normal end. -/
  | halted
  /-- A Step returned FAULTED: a failed run. -/
  | faulted
  /-- The host's budget ran out: nothing is known of termination. -/
  | budget
  deriving DecidableEq, Repr

/-- The driving loop: at most `budget` Steps, until one returns HALTED or FAULTED (R193). The budget is
the host's; the core counts nothing (R100). -/
def drive : Nat → State → Host.Outcome (State × RunEnd) Fault Refusal
  | 0, s => .next (s, .budget)
  | n + 1, s =>
    match transaction s with
    | .next (t, .running) => drive n t
    | .next (t, .halted) => .next (t, .halted)
    | .next (t, .faulted) => .next (t, .faulted)
    | .fault r => .fault r
    | .refused r => .refused r

end Sys2Proof.Machine
end

