-- ==== Sys2Proof/Safety.lean ====
section
/-! DEFINITION. What counts as a safe run and the invariant of the machine, in the terms claims use
(spec/40_engine.md R101, R102; spec/42_conditional.md R156; spec/60_exceptions.md R170;
spec/70_reset_and_hazards.md R193). -/

namespace Sys2Proof

/-- The opcodes that write O as a side effect (R25, the table of R115). -/
def BasicOp.writesO : BasicOp → Bool
  | .add | .sub | .mul | .div | .shl | .shr => true
  | .set | .mod | .and | .bor | .xor | .ife | .ifn | .ifg | .ifb => false

/-- The opcodes that write operand A (the table of R115): all but the four conditionals. -/
def BasicOp.writesA : BasicOp → Bool
  | .ife | .ifn | .ifg | .ifb => false
  | .set | .add | .sub | .mul | .div | .mod | .shl | .shr | .and | .bor | .xor => true

/-- The operand kinds that move SP when they are resolved (R112). -/
def Operand.movesSp : Operand → Bool
  | .pop | .push => true
  | .reg _ | .regIndirect _ | .regIndirectOffset _ _ | .peek | .sp | .pc | .o | .memDirect _
  | .immExtended _ | .immInline _ => false

/-- The word spells no instruction: `w[3:0] = 0` and `w[9:4] != 0x01`, on numbers (R9, R72). -/
abbrev reservedPattern (w : Word) : Prop := w.toNat % 16 = 0 ∧ w.toNat / 16 % 64 ≠ 1

end Sys2Proof

namespace Sys2Proof.Machine

/-- The core is neither faulted nor halted, so its next step decodes an instruction (R109). -/
abbrev State.Ready (s : State) : Prop := s.faulted = none ∧ s.lastPc ≠ some s.pc

/-- A state is safe while no fatal decode condition has been recorded: only HALTED is a normal end and
FAULTED is a failed run (R193). -/
abbrev State.Safe (s : State) : Prop := s.faulted = none

/-- The next `n` steps all leave a safe state. -/
def State.SafeFor : Nat → State → Prop
  | 0, s => s.Safe
  | n + 1, s => s.Safe ∧ ∀ t, step s = .next t → State.SafeFor n t

/-- The run has come to its normal end: every further step returns HALTED (R102, R193). -/
abbrev State.NormalEnd (s : State) : Prop := s.Safe ∧ s.isHalted = true

/-- The state form every step keeps: memory is canonical; a core that is not faulted and has a skip
pending is not halted and has stepped (R156); a recorded fault has code 1, its info is the word at PC,
that word is reserved, and last_pc is PC (R170). -/
structure State.Inv (s : State) : Prop where
  memory : Memory.wf s.mem = true
  skipPending : s.faulted = none → s.skipNext = true → s.lastPc ≠ none ∧ s.lastPc ≠ some s.pc
  faultRecord : ∀ f info, s.faulted = some (f, info) →
    f = .unrecognizedExtended ∧ info = s.readMem s.pc ∧ s.fetch.1.isReserved = true
      ∧ s.lastPc = some s.pc

end Sys2Proof.Machine
end

