-- ==== Sys2Proof/Certificates/Slice0/Obligations.lean ====
section
/-! DEFINITION. The statements for the provers, each with the rule of spec/ it formalises. Where a
statement rests on a point the source leaves open and the spec decides (spec/92_eei_decisions.md, D<n>),
its docstring names the decision; log entry 1 gathers them. -/

open Sys2Proof Sys2Proof.Machine

/-! ### The codec (spec/30_encoding.md) -/

/-- R75: "encoding then decoding gives back the same operands", for every well-formed instruction with
every operand, whatever words follow it. -/
def Obligations.DecodeOfEncode : Prop :=
  ∀ (i : Instr) (rest : List Word), i.wf = true → decode (encode i ++ rest) = .ok (i, rest)

/-- R75: "Decoding then encoding gives back the same words". -/
def Obligations.EncodeOfDecode : Prop :=
  ∀ (ws rest : List Word) (i : Instr), decode ws = .ok (i, rest) → i.wf = true ∧ encode i ++ rest = ws

/-- R66, R67: the operand of each of the 64 fields and its number of trailing words. -/
def Obligations.OperandFieldTable : Prop :=
  ∀ (t : Word),
    (∀ r : Reg,
      decodeOperand (BitVec.ofNat 6 r.index.val) t = .reg r ∧
      decodeOperand (BitVec.ofNat 6 (0x08 + r.index.val)) t = .regIndirect r ∧
      decodeOperand (BitVec.ofNat 6 (0x10 + r.index.val)) t = .regIndirectOffset r t ∧
      trailing (BitVec.ofNat 6 r.index.val) = 0 ∧
      trailing (BitVec.ofNat 6 (0x08 + r.index.val)) = 0 ∧
      trailing (BitVec.ofNat 6 (0x10 + r.index.val)) = 1) ∧
    [0x18, 0x19, 0x1a, 0x1b, 0x1c, 0x1d, 0x1e, 0x1f].map (fun f => (decodeOperand f t, trailing f)) =
      [(.pop, 0), (.peek, 0), (.push, 0), (.sp, 0), (.pc, 0), (.o, 0), (.memDirect t, 1),
        (.immExtended t, 1)] ∧
    ∀ n, n ≤ 31 →
      decodeOperand (BitVec.ofNat 6 (0x20 + n)) t = .immInline (BitVec.ofNat 16 n) ∧
      trailing (BitVec.ofNat 6 (0x20 + n)) = 0

/-- R73: which words are basic instructions and which JSR, whatever their operand fields hold; the
others are the reserved words of R72. -/
def Obligations.WordClasses : Prop :=
  ∀ (w t1 t2 : Word),
    (w.toNat % 16 ≠ 0 → ∃ op a b, BasicOp.code op = BitVec.ofNat 4 (w.toNat % 16) ∧
      (decodeInstr w t1 t2).1 = op.instr a b) ∧
    (w.toNat % 16 = 0 → w.toNat / 16 % 64 = 1 → ∃ x, (decodeInstr w t1 t2).1 = .jsr x) ∧
    ((decodeInstr w t1 t2).1.isReserved = true ↔ reservedPattern w)

/-- R60, R74: the length follows from the opcode word alone, is 1 to 3 words for an instruction, and is
the number of words the encoder writes. -/
def Obligations.InstructionLength : Prop :=
  (∀ (w t1 t2 u1 u2 : Word), (decodeInstr w t1 t2).2 = (decodeInstr w u1 u2).2) ∧
  (∀ (w t1 t2 : Word), ¬ reservedPattern w →
    1 ≤ (decodeInstr w t1 t2).2 ∧ (decodeInstr w t1 t2).2 ≤ 3 ∧
    (decodeInstr w t1 t2).2 = (encode (decodeInstr w t1 t2).1).length)

/-- The words of spec/95_test_vectors.md W1 to W5, V-ENC-2, V-ENC-6, V-ENC-9, V-ENC-13 and V-EXT-3, at
least one word of every basic opcode, and one of every register, decode to the instructions they are
listed for. The codes of ADD to IFB are the spec's own decision D3 and the indices of B to J its decision
D4 (log entry 1); only SET, JSR and A are its source's. -/
def Obligations.SampleWordsDecode : Prop :=
  [[0x7c01, 0x0030], [0x7de1, 0x1000, 0x0020], [0x7c10, 0x0028], [0xfc01], [0x7c01, 0x0020],
    [0x9501, 0x1000], [0x7dd2, 0xffff], [0x03fe], [0x79e1, 0x1000, 0x2000], [0x0020], [0x9013], [0x8c15],
    [0x440c, 0x1000], [0xc00d], [0x85b2]].map decode =
  [.ok (.set (.reg .a) (.immExtended 0x30), []),
    .ok (.set (.memDirect 0x1000) (.immExtended 0x20), []),
    .ok (.jsr (.immExtended 0x28), []),
    .ok (.set (.reg .a) (.immInline 0x1f), []),
    .ok (.set (.reg .a) (.immExtended 0x20), []),
    .ok (.set (.regIndirectOffset .a 0x1000) (.immInline 5), []),
    .ok (.add .o (.immExtended 0xffff), []),
    .ok (.ifg (.immInline 0x1f) (.reg .a), []),
    .ok (.set (.memDirect 0x1000) (.memDirect 0x2000), []),
    .ok (.reservedExtended 0x02 0x00, []),
    .ok (.sub (.reg .b) (.immInline 4), []),
    .ok (.div (.reg .b) (.immInline 3), []),
    .ok (.ife (.reg .a) (.regIndirectOffset .b 0x1000), []),
    .ok (.ifn (.reg .a) (.immInline 0x10), []),
    .ok (.add .sp (.immInline 1), [])] ∧
  [[0x2cb4], [0x6456], [0x6867], [0x6c78], [0x71b9], [0x75ca], [0x797b, 0x0011, 0x0022],
    [0x7e0f, 0x0077]].map decode =
  [.ok (.mul (.regIndirect .x) (.regIndirect .x), []),
    .ok (.mod (.reg .z) .peek, []),
    .ok (.shl (.reg .i) .push, []),
    .ok (.shr (.reg .j) .sp, []),
    .ok (.and .sp .pc, []),
    .ok (.bor .pc .o, []),
    .ok (.xor (.regIndirectOffset .j 0x11) (.memDirect 0x22), []),
    .ok (.ifb (.immInline 0) (.immExtended 0x77), [])] ∧
  [[0x8001], [0x8011], [0x8021], [0x8031], [0x8041], [0x8051], [0x8061], [0x8071]].map decode =
  [.ok (.set (.reg .a) (.immInline 0), []),
    .ok (.set (.reg .b) (.immInline 0), []),
    .ok (.set (.reg .c) (.immInline 0), []),
    .ok (.set (.reg .x) (.immInline 0), []),
    .ok (.set (.reg .y) (.immInline 0), []),
    .ok (.set (.reg .z) (.immInline 0), []),
    .ok (.set (.reg .i) (.immInline 0), []),
    .ok (.set (.reg .j) (.immInline 0), [])]

/-! ### Reset and the invariant -/

/-- R34: the state after Reset. That last_pc is none is decision D5 of the spec. -/
def Obligations.ResetStateForm : Prop :=
  (∀ r, State.reset.regs.get r = 0) ∧ State.reset.sp = 0xFFFF ∧ State.reset.pc = 0x0000 ∧
  State.reset.o = 0x0000 ∧ (∀ addr, State.reset.readMem addr = 0x0000) ∧
  State.reset.skipNext = false ∧ State.reset.lastPc = none ∧ State.reset.faulted = none

/-- The reset state meets the invariant of Safety.lean. -/
def Obligations.ResetMeetsInvariant : Prop := State.reset.Inv

/-- Every step keeps the invariant: memory stays canonical, a core with a skip pending is never halted
(R156), and a recorded fault names the reserved word at PC with last_pc = PC (R170, decisions D13, D14). -/
def Obligations.StepKeepsInvariant : Prop := ∀ s t : State, s.Inv → step s = .next t → t.Inv

/-! ### The step (spec/40_engine.md R102 to R110) -/

/-- R102, R103, R109: when the core is not faulted, not halted and has no skip pending, and the words
from PC on (modulo 2^16, decision D6) encode a well-formed instruction that is not a reserved word, the
step is `exec` of that instruction, with last_pc the old PC and PC past the instruction's words. -/
def Obligations.StepRunsInstructionAtPc : Prop :=
  ∀ (i : Instr) (s : State), i.wf = true → i.isReserved = false → s.Ready → s.skipNext = false →
    (∀ (k : Nat) (h : k < (encode i).length), s.readMem (s.pc + narrow k) = (encode i)[k]) →
    step s = exec i ((s.setLastPc (some s.pc)).setPc (s.pc + narrow (encode i).length))

/-- R102, R103, R104: with skip_next set, whatever instruction is at PC is decoded, PC advances past it,
skip_next is cleared, the step ends RUNNING, and nothing else happens: SP, O, the registers and memory
stay, no condition is tested and JSR neither pushes nor jumps. That last_pc is the old PC is the halt
check's doing (R102); that the fetch and PC go on modulo 2^16 is the spec's own decision D6 (log entry
1). -/
def Obligations.SkippedInstructionOnlyAdvances : Prop :=
  ∀ (i : Instr) (s : State), i.wf = true → i.isReserved = false → s.Ready → s.skipNext = true →
    (∀ (k : Nat) (h : k < (encode i).length), s.readMem (s.pc + narrow k) = (encode i)[k]) →
    step s = .next { s with
      lastPc := some s.pc, pc := s.pc + narrow (encode i).length, skipNext := false } ∧
    transaction s = .next ({ s with
      lastPc := some s.pc, pc := s.pc + narrow (encode i).length, skipNext := false }, .running)

/-- R103, R170: a reserved extended word at PC is fatal whether or not skip_next is set: the fault and
the word are recorded, last_pc is PC, and nothing else changes (state kept and codes: decisions D13,
D14). -/
def Obligations.ReservedWordFaults : Prop :=
  ∀ s : State, s.Ready → reservedPattern (s.readMem s.pc) →
    step s = .next { s with
      lastPc := some s.pc, faulted := some (.unrecognizedExtended, s.readMem s.pc) }

/-- R170, R171, R172: a step that leaves the core faulted found a reserved word at PC, and its stop is
precise (R175): only last_pc and the record changed. What is kept, and the code and info recorded, are
the spec's own decisions D13 and D14 (log entries 1 and 4). -/
def Obligations.FaultOnlyFromReservedWord : Prop :=
  ∀ s t : State, step s = .next t → s.faulted = none → t.faulted ≠ none →
    reservedPattern (s.readMem s.pc) ∧
    t = { s with lastPc := some s.pc, faulted := some (.unrecognizedExtended, s.readMem s.pc) }

/-- R102, R110, R183: a halted or faulted core stays as it is for any number of steps (that a faulted
core does is decision D13). -/
def Obligations.StoppedCoreNeverChanges : Prop :=
  ∀ (n : Nat) (s : State), (s.faulted ≠ none ∨ s.lastPc = some s.pc) →
    Host.Core.run Sys2Proof.core n s = .next s

/-- R102: a step that passes the halt check records the old PC, and leaves the core halted exactly when
it leaves PC as it was; a skipped instruction never leaves the core halted. -/
def Obligations.HaltedExactlyAtOwnAddress : Prop :=
  ∀ s t : State, s.Ready → step s = .next t →
    t.lastPc = some s.pc ∧ (t.isHalted = true ↔ t.pc = s.pc) ∧
    (s.skipNext = true → ¬ reservedPattern (s.readMem s.pc) → t.isHalted = false)

/-- R101, R102, R110, R174: the status each step returns, in order of priority, and that a faulted or
halted core keeps its state. The names are the spec's own decision D18, the faulted core's state its
decision D13 (log entry 1); that such a step answers a next state is log entry 3. -/
def Obligations.StatusOfStep : Prop :=
  ∀ s : State,
    (s.faulted ≠ none → transaction s = .next (s, .faulted)) ∧
    (s.faulted = none → s.lastPc = some s.pc → transaction s = .next (s, .halted)) ∧
    (s.Ready → reservedPattern (s.readMem s.pc) → ∃ t, transaction s = .next (t, .faulted)) ∧
    (s.Ready → ¬ reservedPattern (s.readMem s.pc) → ∃ t, transaction s = .next (t, .running))

/-- R193: the driving loop ends HALTED only in a state that is halted and not faulted, and ends FAULTED
only in a faulted one; from a state that meets the invariant, the state it ends in does too. -/
def Obligations.DriveEndsAsReported : Prop :=
  ∀ (n : Nat) (s t : State) (e : RunEnd), s.Inv → drive n s = .next (t, e) →
    t.Inv ∧ (e = .halted → t.NormalEnd) ∧ (e = .faulted → t.faulted ≠ none)

/-! ### Operands (spec/40_engine.md R106, R111 to R114) -/

/-- R112, R113: the value each operand kind reads, and the state it leaves: only Pop and Push change it,
and they change SP alone (Peek, and Push as a value, are decision D9; wrapping is D7 and D8). -/
def Obligations.OperandKindsRead : Prop :=
  ∀ (s : State) (r : Reg) (k : Word),
    getValue (.reg r) s = (s, s.regs.get r) ∧
    getValue (.regIndirect r) s = (s, s.readMem (s.regs.get r)) ∧
    (∃ addr : Word, addr.toNat = (k.toNat + (s.regs.get r).toNat) % 65536 ∧
      getValue (.regIndirectOffset r k) s = (s, s.readMem addr)) ∧
    (∃ p : Word, p.toNat = (s.sp.toNat + 1) % 65536 ∧
      getValue .pop s = ({ s with sp := p }, s.readMem s.sp)) ∧
    getValue .peek s = (s, s.readMem s.sp) ∧
    (∃ p : Word, p.toNat = (s.sp.toNat + 65535) % 65536 ∧
      getValue .push s = ({ s with sp := p }, s.readMem p)) ∧
    getValue .sp s = (s, s.sp) ∧ getValue .pc s = (s, s.pc) ∧ getValue .o s = (s, s.o) ∧
    getValue (.memDirect k) s = (s, s.readMem k) ∧
    getValue (.immExtended k) s = (s, k) ∧ getValue (.immInline k) s = (s, k)

/-- R112, R113: where SET of a literal writes for each kind of operand A (Pop and Peek as targets are
decision D9; the discarded write to a literal is D10; wrapping is D7 and D8). -/
def Obligations.SetWritesEachTarget : Prop :=
  ∀ (s : State) (r : Reg) (k v : Word),
    exec (.set (.reg r) (.immExtended v)) s = .next { s with regs := s.regs.set r v } ∧
    exec (.set (.regIndirect r) (.immExtended v)) s = .next (s.writeMem (s.regs.get r) v) ∧
    (∃ addr : Word, addr.toNat = (k.toNat + (s.regs.get r).toNat) % 65536 ∧
      exec (.set (.regIndirectOffset r k) (.immExtended v)) s = .next (s.writeMem addr v)) ∧
    (∃ p : Word, p.toNat = (s.sp.toNat + 1) % 65536 ∧
      exec (.set .pop (.immExtended v)) s = .next ({ s with sp := p }.writeMem s.sp v)) ∧
    exec (.set .peek (.immExtended v)) s = .next (s.writeMem s.sp v) ∧
    (∃ p : Word, p.toNat = (s.sp.toNat + 65535) % 65536 ∧
      exec (.set .push (.immExtended v)) s = .next ({ s with sp := p }.writeMem p v)) ∧
    exec (.set .sp (.immExtended v)) s = .next { s with sp := v } ∧
    exec (.set .pc (.immExtended v)) s = .next { s with pc := v } ∧
    exec (.set .o (.immExtended v)) s = .next { s with o := v } ∧
    exec (.set (.memDirect k) (.immExtended v)) s = .next (s.writeMem k v) ∧
    exec (.set (.immExtended k) (.immExtended v)) s = .next s ∧
    exec (.set (.immInline k) (.immExtended v)) s = .next s

/-- R106: operand B is resolved and read first, then operand A in the state B left. -/
def Obligations.OperandBBeforeA : Prop :=
  ∀ (a b : Operand) (s : State),
    (gather a b s).vB = (getValue b s).2 ∧
    (gather a b s).vA = (getValue a (getValue b s).1).2 ∧
    (gather a b s).state = (getValue a (getValue b s).1).1 ∧
    (gather a b s).loc = (resolve a (getValue b s).1).2

/-- R113: a location that is not a literal reads back what was written to it; a write to a literal
changes nothing (decision D10); and every other location reads as before. -/
def Obligations.LocationReadsBack : Prop :=
  ∀ (l m : Loc) (v : Word) (s : State), Memory.wf s.mem = true →
    ((∀ k, l ≠ .lit k) → readLoc l (writeLoc l v s) = v) ∧
    ((∃ k, l = .lit k) → writeLoc l v s = s) ∧
    (m ≠ l → readLoc m (writeLoc l v s) = readLoc m s)

/-- R114: `SET PUSH, POP` and `SET POP, PUSH` change nothing, and `ADD PEEK, POP` adds the popped word to
the word that is then on top (derived in the spec; Pop as a target and Push as a value are decision D9). -/
def Obligations.PushPopPairs : Prop :=
  ∀ s : State, Memory.wf s.mem = true →
    exec (.set .push .pop) s = .next s ∧ exec (.set .pop .push) s = .next s ∧
    ∃ t, exec (.add .peek .pop) s = .next t ∧ t.sp = s.sp + 1 ∧
      (t.readMem t.sp).toNat = ((s.readMem (s.sp + 1)).toNat + (s.readMem s.sp).toNat) % 65536

/-! ### Results of the basic instructions that write A (spec/41_alu.md). `gather` is the operand phase
of R106, pinned by OperandBBeforeA and OperandKindsRead; O is written before A's location (R107,
decision D11). -/

/-- R130: `A := B`, and O is unchanged. -/
def Obligations.SetResult : Prop :=
  ∀ (a b : Operand) (s : State),
    exec (.set a b) s = .next (writeLoc (gather a b s).loc (gather a b s).vB (gather a b s).state)

/-- R131: the sum modulo 2^16, and O the carry (with A = O the result wins, decision D11). -/
def Obligations.AddResult : Prop :=
  ∀ (a b : Operand) (s : State), ∃ res o : Word,
    exec (.add a b) s = .next (writeLoc (gather a b s).loc res ((gather a b s).state.setO o)) ∧
    res.toNat = ((gather a b s).vA.toNat + (gather a b s).vB.toNat) % 65536 ∧
    o.toNat = (if (gather a b s).vA.toNat + (gather a b s).vB.toNat > 0xffff then 1 else 0)

/-- R132: the difference modulo 2^16, and O 0xffff on a borrow (with A = O the result wins, decision
D11). -/
def Obligations.SubResult : Prop :=
  ∀ (a b : Operand) (s : State), ∃ res o : Word,
    exec (.sub a b) s = .next (writeLoc (gather a b s).loc res ((gather a b s).state.setO o)) ∧
    (res.toNat : Int) = ((gather a b s).vA.toNat - (gather a b s).vB.toNat : Int) % 65536 ∧
    o.toNat = (if (gather a b s).vA.toNat < (gather a b s).vB.toNat then 0xffff else 0)

/-- R133: the result and O are the low and high half of the product (with A = O the result wins,
decision D11). -/
def Obligations.MulResult : Prop :=
  ∀ (a b : Operand) (s : State), ∃ res o : Word,
    exec (.mul a b) s = .next (writeLoc (gather a b s).loc res ((gather a b s).state.setO o)) ∧
    o.toNat * 65536 + res.toNat = (gather a b s).vA.toNat * (gather a b s).vB.toNat

/-- R134: the quotient, and O the first 16 fraction bits; division by zero gives 0 in both (with A = O the
result wins, decision D11). -/
def Obligations.DivResult : Prop :=
  ∀ (a b : Operand) (s : State), ∃ res o : Word,
    exec (.div a b) s = .next (writeLoc (gather a b s).loc res ((gather a b s).state.setO o)) ∧
    ((gather a b s).vB = 0 → res = 0 ∧ o = 0) ∧
    ((gather a b s).vB ≠ 0 →
      res.toNat = (gather a b s).vA.toNat / (gather a b s).vB.toNat ∧
      o.toNat = (gather a b s).vA.toNat * 65536 / (gather a b s).vB.toNat % 65536)

/-- R135: the remainder, 0 for a zero divisor; O is unchanged in both cases. -/
def Obligations.ModResult : Prop :=
  ∀ (a b : Operand) (s : State), ∃ res : Word,
    exec (.mod a b) s = .next (writeLoc (gather a b s).loc res (gather a b s).state) ∧
    ((gather a b s).vB = 0 → res = 0) ∧
    ((gather a b s).vB ≠ 0 → res.toNat = (gather a b s).vA.toNat % (gather a b s).vB.toNat)

/-- R136, in the spec's closed forms: the shift amount is not reduced (decision D23; with A = O the
result wins, decision D11). -/
def Obligations.ShlResult : Prop :=
  ∀ (a b : Operand) (s : State), ∃ res o : Word,
    exec (.shl a b) s = .next (writeLoc (gather a b s).loc res ((gather a b s).state.setO o)) ∧
    ((gather a b s).vB.toNat = 0 → res = (gather a b s).vA ∧ o = 0) ∧
    (1 ≤ (gather a b s).vB.toNat → (gather a b s).vB.toNat ≤ 15 →
      res.toNat = (gather a b s).vA.toNat * 2 ^ (gather a b s).vB.toNat % 65536 ∧
      o.toNat = (gather a b s).vA.toNat / 2 ^ (16 - (gather a b s).vB.toNat)) ∧
    ((gather a b s).vB.toNat = 16 → res = 0 ∧ o = (gather a b s).vA) ∧
    (17 ≤ (gather a b s).vB.toNat → (gather a b s).vB.toNat ≤ 31 →
      res = 0 ∧ o.toNat = (gather a b s).vA.toNat * 2 ^ ((gather a b s).vB.toNat - 16) % 65536) ∧
    (32 ≤ (gather a b s).vB.toNat → res = 0 ∧ o = 0)

/-- R137, in the spec's closed forms: a logical shift, its amount not reduced (decision D23; with A = O
the result wins, decision D11). -/
def Obligations.ShrResult : Prop :=
  ∀ (a b : Operand) (s : State), ∃ res o : Word,
    exec (.shr a b) s = .next (writeLoc (gather a b s).loc res ((gather a b s).state.setO o)) ∧
    ((gather a b s).vB.toNat = 0 → res = (gather a b s).vA ∧ o = 0) ∧
    (1 ≤ (gather a b s).vB.toNat → (gather a b s).vB.toNat ≤ 15 →
      res.toNat = (gather a b s).vA.toNat / 2 ^ (gather a b s).vB.toNat ∧
      o.toNat = (gather a b s).vA.toNat * 2 ^ (16 - (gather a b s).vB.toNat) % 65536) ∧
    ((gather a b s).vB.toNat = 16 → res = 0 ∧ o = (gather a b s).vA) ∧
    (17 ≤ (gather a b s).vB.toNat → (gather a b s).vB.toNat ≤ 31 →
      res = 0 ∧ o.toNat = (gather a b s).vA.toNat / 2 ^ ((gather a b s).vB.toNat - 16)) ∧
    (32 ≤ (gather a b s).vB.toNat → res = 0 ∧ o = 0)

/-- R138, R139, R140: AND, BOR and XOR bit by bit; O is unchanged. -/
def Obligations.BitwiseResults : Prop :=
  ∀ (a b : Operand) (s : State), ∃ ra ro rx : Word,
    exec (.and a b) s = .next (writeLoc (gather a b s).loc ra (gather a b s).state) ∧
    exec (.bor a b) s = .next (writeLoc (gather a b s).loc ro (gather a b s).state) ∧
    exec (.xor a b) s = .next (writeLoc (gather a b s).loc rx (gather a b s).state) ∧
    ∀ k : Nat,
      ra.getLsbD k = ((gather a b s).vA.getLsbD k && (gather a b s).vB.getLsbD k) ∧
      ro.getLsbD k = ((gather a b s).vA.getLsbD k || (gather a b s).vB.getLsbD k) ∧
      rx.getLsbD k = ((gather a b s).vA.getLsbD k != (gather a b s).vB.getLsbD k)

/-- R107, decision D11: when operand A is O and the opcode writes O, O ends as the result and the
overflow value is lost, for ADD, SUB, MUL, DIV, SHL and SHR. -/
def Obligations.ResultWinsInO : Prop :=
  ∀ (b : Operand) (s : State), ∃ ta ts tm td tl tr : State,
    exec (.add .o b) s = .next ta ∧ exec (.sub .o b) s = .next ts ∧ exec (.mul .o b) s = .next tm ∧
    exec (.div .o b) s = .next td ∧ exec (.shl .o b) s = .next tl ∧ exec (.shr .o b) s = .next tr ∧
    ta.o.toNat = (s.o.toNat + (getValue b s).2.toNat) % 65536 ∧
    (ts.o.toNat : Int) = (s.o.toNat - (getValue b s).2.toNat : Int) % 65536 ∧
    tm.o.toNat = s.o.toNat * (getValue b s).2.toNat % 65536 ∧
    td.o.toNat = s.o.toNat / (getValue b s).2.toNat ∧
    tl.o.toNat = s.o.toNat * 2 ^ (getValue b s).2.toNat % 65536 ∧
    tr.o.toNat = s.o.toNat / 2 ^ (getValue b s).2.toNat

/-! ### The conditionals (spec/42_conditional.md) -/

/-- R151, R152: IFE and IFN resolve and read both operands, write nothing, and set skip_next when their
condition is false. -/
def Obligations.EqualityTestsSkip : Prop :=
  ∀ (a b : Operand) (s : State),
    exec (.ife a b) s = .next (if (gather a b s).vA.toNat = (gather a b s).vB.toNat
      then (gather a b s).state else { (gather a b s).state with skipNext := true }) ∧
    exec (.ifn a b) s = .next (if (gather a b s).vA.toNat = (gather a b s).vB.toNat
      then { (gather a b s).state with skipNext := true } else (gather a b s).state)

/-- R153, R154: IFG compares unsigned, and IFB tests for a common set bit. -/
def Obligations.OrderAndBitTestsSkip : Prop :=
  ∀ (a b : Operand) (s : State),
    exec (.ifg a b) s = .next (if (gather a b s).vB.toNat < (gather a b s).vA.toNat
      then (gather a b s).state else { (gather a b s).state with skipNext := true }) ∧
    ((∃ k : Nat, (gather a b s).vA.getLsbD k = true ∧ (gather a b s).vB.getLsbD k = true) →
      exec (.ifb a b) s = .next (gather a b s).state) ∧
    ((∀ k : Nat, (gather a b s).vA.getLsbD k = true → (gather a b s).vB.getLsbD k = false) →
      exec (.ifb a b) s = .next { (gather a b s).state with skipNext := true })

/-! ### JSR and control transfer (spec/43_jsr.md) -/

/-- R160: the operand is read before the push (decision D12); the return address, PC as the instruction
runs, is written at SP; SP is decremented; PC is the operand's value; everything else is as the
operand's resolution left it. -/
def Obligations.JsrResult : Prop :=
  ∀ (x : Operand) (s : State), Memory.wf s.mem = true → ∃ t : State,
    exec (.jsr x) s = .next t ∧
    t.pc = (getValue x s).2 ∧
    t.sp.toNat = ((getValue x s).1.sp.toNat + 65535) % 65536 ∧
    t.readMem (getValue x s).1.sp = s.pc ∧
    (∀ addr, addr ≠ (getValue x s).1.sp → t.readMem addr = s.readMem addr) ∧
    t.regs = s.regs ∧ t.o = s.o ∧ t.skipNext = s.skipNext ∧ t.lastPc = s.lastPc ∧
    t.faulted = s.faulted

/-- R160, its warning: after a JSR, `ADD SP, 1` then `SET PC, POP` returns to the word after the JSR.
`u` is the state in which the ADD runs and `w` the one in which the SET runs; both have the SP and the
memory the instruction before left. -/
def Obligations.ReturnIdiomReturns : Prop :=
  ∀ (x : Operand) (s t u : State), Memory.wf s.mem = true → exec (.jsr x) s = .next t →
    u.sp = t.sp → u.mem = t.mem →
    ∃ v, exec (.add .sp (.immInline 1)) u = .next v ∧
      ∀ w : State, w.sp = v.sp → w.mem = v.mem →
        ∃ z, exec (.set .pc .pop) w = .next z ∧ z.pc = s.pc ∧ z.sp = t.sp + 2

/-- R161, R108: an ALU result written to PC is a jump; SET is absolute, ADD and SUB are relative to the
address after the instruction, which is what PC holds as the instruction runs. -/
def Obligations.JumpsThroughPc : Prop :=
  ∀ (b : Operand) (s : State), ∃ t u v : State,
    exec (.set .pc b) s = .next t ∧ exec (.add .pc b) s = .next u ∧ exec (.sub .pc b) s = .next v ∧
    t.pc = (getValue b s).2 ∧
    u.pc.toNat = (s.pc.toNat + (getValue b s).2.toNat) % 65536 ∧
    (v.pc.toNat : Int) = (s.pc.toNat - (getValue b s).2.toNat : Int) % 65536

/-- R183, R102: the self-jump `label: SET PC, label`, in the long form of a label reference, runs once
with no effect but last_pc and halts the core: the next step returns HALTED and changes nothing. -/
def Obligations.SelfJumpHalts : Prop :=
  ∀ s : State, s.Ready → s.skipNext = false →
    s.readMem s.pc = 0x7dc1 → s.readMem (s.pc + 1) = s.pc →
    ∃ t, step s = .next t ∧ t = { s with lastPc := some s.pc } ∧ transaction t = .next (t, .halted)

/-! ### Frames -/

/-- R21, R25, R106, R113, R115: what the eleven opcodes that write A leave unchanged: every register but
the destination, SP but for a Pop or Push operand, PC unless it is the destination, O unless the opcode
or the destination writes it, the engine's bookkeeping, and every word of memory but the one at A's
location. -/
def Obligations.AluFrame : Prop :=
  ∀ (op : BasicOp) (a b : Operand) (s t : State), op.writesA = true →
    exec (op.instr a b) s = .next t →
    (∀ r, a ≠ .reg r → t.regs.get r = s.regs.get r) ∧
    (a ≠ .sp → a.movesSp = false → b.movesSp = false → t.sp = s.sp) ∧
    (a ≠ .pc → t.pc = s.pc) ∧
    (a ≠ .o → op.writesO = false → t.o = s.o) ∧
    t.skipNext = s.skipNext ∧ t.lastPc = s.lastPc ∧ t.faulted = s.faulted ∧
    (∀ addr, (resolve a (resolve b s).1).2 ≠ .mem addr → t.readMem addr = s.readMem addr)

/-- R106, R150: what IFE, IFN, IFG and IFB leave unchanged: everything but skip_next, which they never
clear, and SP, which only a Pop or Push operand moves. -/
def Obligations.ConditionalFrame : Prop :=
  ∀ (op : BasicOp) (a b : Operand) (s t : State), op.writesA = false →
    exec (op.instr a b) s = .next t →
    t.regs = s.regs ∧ t.pc = s.pc ∧ t.o = s.o ∧ t.mem = s.mem ∧
    t.lastPc = s.lastPc ∧ t.faulted = s.faulted ∧
    (a.movesSp = false → b.movesSp = false → t.sp = s.sp) ∧
    (s.skipNext = true → t.skipNext = true)

/-- R113, decision D10: an ALU opcode whose operand A is a literal changes only O, where the opcode
writes it, and SP, where operand B moves it. -/
def Obligations.LiteralTargetFrame : Prop :=
  ∀ (op : BasicOp) (a b : Operand) (s t : State), op.writesA = true →
    (∃ k, a = .immExtended k ∨ a = .immInline k) → exec (op.instr a b) s = .next t →
    t.regs = s.regs ∧ t.pc = s.pc ∧ t.mem = s.mem ∧ t.sp = (getValue b s).1.sp ∧
    t.skipNext = s.skipNext ∧ t.lastPc = s.lastPc ∧ t.faulted = s.faulted ∧
    (op.writesO = false → t.o = s.o)

/-- R170, R175: executing a reserved extended word takes the fault: it completes with the fault recorded,
the info being the opcode word `(e << 4) | (x << 10)` of R63, and nothing else changed (decisions D13,
D14). -/
def Obligations.ReservedExtendedTakesFault : Prop :=
  ∀ (e x : BitVec 6) (s : State), ∃ w : Word,
    exec (.reservedExtended e x) s = .next { s with faulted := some (.unrecognizedExtended, w) } ∧
    w.toNat = e.toNat * 16 + x.toNat * 1024

/-! ### Rules about the whole machine -/

/-- R172, R174: execution cannot fault, and every step answers a next state. That a step of a halted or
faulted core does is the model's reading (log entry 3), and so is that a reserved word, fatal by R170,
takes its fault as a next state (log entry 4). -/
def Obligations.EveryStepCompletes : Prop :=
  (∀ s : State, ∃ t, step s = .next t) ∧ ∀ (i : Instr) (s : State), ∃ t, exec i s = .next t

/-- R21: no step writes a general register implicitly: if a register changes, the step executed a basic
instruction that writes operand A and whose operand A names that register. -/
def Obligations.RegistersChangeOnlyAsDestination : Prop :=
  ∀ (s t : State) (r : Reg), step s = .next t → t.regs.get r ≠ s.regs.get r →
    s.skipNext = false ∧ ∃ op b, BasicOp.writesA op = true ∧ s.fetch.1 = op.instr (.reg r) b

/-- R26: no instruction reads O implicitly: with O in no operand, a different O before the instruction
makes no difference after it, but for O itself where the instruction leaves O unchanged. -/
def Obligations.OverflowIsNoHiddenInput : Prop :=
  (∀ (op : BasicOp) (a b : Operand) (s t : State) (v : Word), a ≠ .o → b ≠ .o →
    exec (op.instr a b) s = .next t →
    exec (op.instr a b) (s.setO v) = .next (if op.writesO then t else t.setO v)) ∧
  (∀ (x : Operand) (s t : State) (v : Word), x ≠ .o → exec (.jsr x) s = .next t →
    exec (.jsr x) (s.setO v) = .next (t.setO v))

/-- R27, R28: no operand reaches skip_next or last_pc: a different last_pc before any instruction, or a
different skip_next before one that is no conditional (an opcode that writes A, JSR, a reserved word), is
carried through and changes nothing else. -/
def Obligations.BookkeepingIsNoHiddenInput : Prop :=
  (∀ (i : Instr) (s t : State) (p : Option Word), exec i s = .next t →
    exec i (s.setLastPc p) = .next (t.setLastPc p)) ∧
  (∀ (op : BasicOp) (a b : Operand) (s t : State) (k : Bool), op.writesA = true →
    exec (op.instr a b) s = .next t → exec (op.instr a b) (s.setSkip k) = .next (t.setSkip k)) ∧
  (∀ (x : Operand) (s t : State) (k : Bool),
    exec (.jsr x) s = .next t → exec (.jsr x) (s.setSkip k) = .next (t.setSkip k)) ∧
  (∀ (e x : BitVec 6) (s t : State) (k : Bool), exec (.reservedExtended e x) s = .next t →
    exec (.reservedExtended e x) (s.setSkip k) = .next (t.setSkip k))

/-! ### Loading (spec/70_reset_and_hazards.md R191) -/

/-- R191, R193: before the first Step, an image of at most 65536 words is copied to memory from address 0
and every other word keeps its value, and nothing else changes; a longer image is refused (decision D15);
after the first Step every image is refused (decision D16). That 'before the first Step' is 'last_pc is
none and no fault is recorded', and that a second Load overlays a memory that is not reset, is the
model's reading (log entry 7). -/
def Obligations.LoadPlacesImage : Prop :=
  ∀ (s : State) (image : List Word),
    (s.lastPc = none → s.faulted = none → Memory.wf s.mem = true →
      (image.length ≤ 65536 → ∃ t, s.load image = .next t ∧ Memory.wf t.mem = true ∧
        (∀ (k : Nat) (h : k < image.length), t.readMem (BitVec.ofNat 16 k) = image[k]) ∧
        (∀ addr : Word, image.length ≤ addr.toNat → t.readMem addr = s.readMem addr) ∧
        t = { s with mem := t.mem }) ∧
      (65536 < image.length → s.load image = .refused .imageTooLong)) ∧
    ((s.lastPc ≠ none ∨ s.faulted ≠ none) → s.load image = .refused .loadAfterStep)

/-- R42, R191: the bytes of an image file make words high byte first; an odd number of bytes is refused
(decision D15). -/
def Obligations.ImageBytesAreBigEndian : Prop :=
  ∀ bytes : List Byte,
    (bytes.length % 2 = 1 → ∀ s : State, s.loadFile bytes = .refused .oddImageFile) ∧
    (bytes.length % 2 = 0 → ∃ ws, imageWords bytes = some ws ∧ 2 * ws.length = bytes.length ∧
      ∀ (k : Nat) (h : k < ws.length), ws[k].toNat =
        (bytes.getD (2 * k) 0).toNat * 256 + (bytes.getD (2 * k + 1) 0).toNat)

/-! ### The toolchain (spec/30_encoding.md R76 to R88) -/

/-- R88: the words of any sequence of well-formed instructions, disassembled to tokens and assembled
again, are the same words. -/
def Obligations.TokenRoundTrip : Prop :=
  ∀ is : List Instr, (∀ i ∈ is, i.wf = true ∧ i.isReserved = false) →
    ∃ toks, disassemble (is.flatMap encode) = .ok toks ∧ assemble toks = .ok (is.flatMap encode)

/-- R86: a reserved extended word is one raw `Data` token and the walk resumes at the next word. That no
`Newline` token stands between it and the tokens of the rest is the model's reading (log entry 9). -/
def Obligations.ReservedWordDisassemblesAsData : Prop :=
  ∀ (w : Word) (rest : List Word) (toks : List Token), reservedPattern w →
    disassemble rest = .ok toks → disassemble (w :: rest) = .ok (.data w :: toks)

/-- R79, R87, R76: the text of an operand reads back as that operand, but for an extended immediate of 31
or less, which is spelled like an inline one (R88). -/
def Obligations.OperandTextReadsBack : Prop :=
  ∀ x : Operand, x.wf = true → (∀ k : Word, x = .immExtended k → 31 < k.toNat) →
    parseOperand (renderOperand x) = .ok (.operand x)

/-- R76, R83: a label reference becomes an extended immediate with a trailing word, whatever the offset,
as the operand of JSR and as either operand of every basic instruction, or as both. An undefined label is
an error in each place. An offset above 65535 fits no word and is an error, which is the model's choice
(log entry 11). -/
def Obligations.LabelReferenceIsLongForm : Prop :=
  ∀ (labels : LabelTable) (name : Text),
    (∀ k, labels.lookup name = some k → k < 65536 →
      encodePass labels none [.op .jsr, .labelRef name, .newline] = .ok [0x7c10, BitVec.ofNat 16 k] ∧
      ∀ (op : BasicOp) (x : Operand), x.wf = true →
        encodePass labels none [.op (.basic op), .labelRef name, .operand x, .newline] =
          .ok (encode (op.instr (.immExtended (BitVec.ofNat 16 k)) x)) ∧
        encodePass labels none [.op (.basic op), .operand x, .labelRef name, .newline] =
          .ok (encode (op.instr x (.immExtended (BitVec.ofNat 16 k)))) ∧
        encodePass labels none [.op (.basic op), .labelRef name, .labelRef name, .newline] =
          .ok (encode (op.instr (.immExtended (BitVec.ofNat 16 k)) (.immExtended (BitVec.ofNat 16 k))))) ∧
    (labels.lookup name = none →
      encodePass labels none [.op .jsr, .labelRef name, .newline] = .error (.undefinedLabel name) ∧
      ∀ (op : BasicOp) (x : Operand),
        encodePass labels none [.op (.basic op), .labelRef name, .operand x, .newline] =
          .error (.undefinedLabel name) ∧
        encodePass labels none [.op (.basic op), .operand x, .labelRef name, .newline] =
          .error (.undefinedLabel name)) ∧
    (∀ k, labels.lookup name = some k → 65536 ≤ k →
      encodePass labels none [.op .jsr, .labelRef name, .newline] = .error .unknownOperandToken)

/-- R193: once a step has been made, from whatever state, no image can be loaded (decision D16; that last_pc
and the fault record tell it is the model's reading, log entry 7). -/
def Obligations.NoLoadAfterStep : Prop :=
  ∀ (s t : State) (image : List Word), step s = .next t → t.load image = .refused .loadAfterStep
end

