-- ==== Sys2Proof/Laws/Codec.lean ====
section
/-! SUPPORT. Small lemmas of the codec: packing and its fields, the tables, the trailing counts. -/

namespace Sys2Proof

/-! ### Packing and fields -/

@[simp] theorem opcodeField_packWord (o : BitVec 4) (a b : BitVec 6) : opcodeField (packWord o a b) = o := by
  apply BitVec.eq_of_getLsbD_eq
  intro i hi
  simp only [opcodeField, packWord, BitVec.getLsbD_extractLsb', BitVec.getLsbD_or,
    BitVec.getLsbD_setWidth, BitVec.getLsbD_shiftLeft]
  simp [hi, show i < 16 by omega, show i < 10 by omega]

@[simp] theorem fieldA_packWord (o : BitVec 4) (a b : BitVec 6) : fieldA (packWord o a b) = a := by
  apply BitVec.eq_of_getLsbD_eq
  intro i hi
  simp only [fieldA, packWord, BitVec.getLsbD_extractLsb', BitVec.getLsbD_or,
    BitVec.getLsbD_setWidth, BitVec.getLsbD_shiftLeft]
  simp [hi, show 4 + i < 16 by omega, show 4 + i < 10 by omega, show i < 16 by omega]

@[simp] theorem fieldB_packWord (o : BitVec 4) (a b : BitVec 6) : fieldB (packWord o a b) = b := by
  apply BitVec.eq_of_getLsbD_eq
  intro i hi
  simp only [fieldB, packWord, BitVec.getLsbD_extractLsb', BitVec.getLsbD_or,
    BitVec.getLsbD_setWidth, BitVec.getLsbD_shiftLeft]
  simp [hi, show 10 + i < 16 by omega, show ¬ 10 + i < 10 by omega, show i < 16 by omega,
    show ¬ 10 + i < 4 by omega, BitVec.getLsbD_of_ge o (10 + i) (by omega),
    BitVec.getLsbD_of_ge a (10 + i - 4) (by omega)]

/-- An opcode word is its three fields. -/
theorem packWord_fields (w : Word) : packWord (opcodeField w) (fieldA w) (fieldB w) = w := by
  apply BitVec.eq_of_getLsbD_eq
  intro i hi
  simp only [opcodeField, fieldA, fieldB, packWord, BitVec.getLsbD_extractLsb', BitVec.getLsbD_or,
    BitVec.getLsbD_setWidth, BitVec.getLsbD_shiftLeft]
  by_cases h4 : i < 4
  · simp [hi, h4, show i < 10 by omega]
  · by_cases h10 : i < 10
    · simp [hi, h4, h10, show i - 4 < 16 by omega, show i - 4 < 6 by omega, show 4 + (i - 4) = i by omega]
    · simp [hi, h4, h10, show i - 4 < 16 by omega, show i - 10 < 16 by omega,
        show i - 10 < 6 by omega, show 10 + (i - 10) = i by omega, show ¬ i - 4 < 6 by omega]

/-! ### Fields as numbers (R9) -/

theorem opcodeField_toNat (w : Word) : (opcodeField w).toNat = w.toNat % 16 := by
  simp [opcodeField, BitVec.extractLsb'_toNat]

theorem fieldA_toNat (w : Word) : (fieldA w).toNat = w.toNat / 16 % 64 := by
  simp [fieldA, BitVec.extractLsb'_toNat, Nat.shiftRight_eq_div_pow]

theorem fieldB_toNat (w : Word) : (fieldB w).toNat = w.toNat / 1024 % 64 := by
  simp [fieldB, BitVec.extractLsb'_toNat, Nat.shiftRight_eq_div_pow]

/-- The reserved pattern on numbers is the one on fields (R72). -/
theorem reservedPattern_iff (w : Word) :
    reservedPattern w ↔ opcodeField w = 0 ∧ fieldA w ≠ jsrCode := by
  unfold reservedPattern
  rw [← opcodeField_toNat, ← fieldA_toNat]
  constructor
  · rintro ⟨h, g⟩
    exact ⟨BitVec.eq_of_toNat_eq (by simpa using h), fun e => g (by rw [e]; rfl)⟩
  · rintro ⟨h, g⟩
    exact ⟨by rw [h]; rfl, fun e => g (BitVec.eq_of_toNat_eq (by rw [e]; rfl))⟩

/-! ### Tables -/

@[simp] theorem Reg.ofIndex_index (r : Reg) : Reg.ofIndex r.index = r := by cases r <;> rfl

@[simp] theorem Reg.index_ofIndex (n : Fin 8) : (Reg.ofIndex n).index = n := by revert n; decide

@[simp] theorem BasicOp.ofCode_code (op : BasicOp) : BasicOp.ofCode op.code = some op := by
  cases op <;> rfl

theorem BasicOp.code_of_ofCode {c : BitVec 4} {op : BasicOp} (h : BasicOp.ofCode c = some op) :
    op.code = c := by
  revert c op; decide

@[simp] theorem BasicOp.ofCode_zero : BasicOp.ofCode 0 = none := rfl

theorem BasicOp.ofCode_eq_none {c : BitVec 4} : BasicOp.ofCode c = none ↔ c = 0 := by
  revert c; decide

@[simp] theorem BasicOp.code_ne_zero (op : BasicOp) : op.code ≠ 0 := by cases op <;> decide

@[simp] theorem BasicOp.shape_instr (op : BasicOp) (a b : Operand) :
    (op.instr a b).shape = .basic op a b := by cases op <;> rfl

@[simp] theorem BasicOp.isReserved_instr (op : BasicOp) (a b : Operand) :
    (op.instr a b).isReserved = false := by cases op <;> rfl

@[simp] theorem BasicOp.wf_instr (op : BasicOp) (a b : Operand) :
    (op.instr a b).wf = (a.wf && b.wf) := by cases op <;> rfl

/-- An instruction is a basic one, JSR or a reserved word. -/
theorem Instr.cases_shape (i : Instr) :
    (∃ op a b, i = BasicOp.instr op a b) ∨ (∃ x, i = .jsr x) ∨ ∃ e x, i = .reservedExtended e x := by
  cases i with
  | set a b => exact .inl ⟨.set, a, b, rfl⟩
  | add a b => exact .inl ⟨.add, a, b, rfl⟩
  | sub a b => exact .inl ⟨.sub, a, b, rfl⟩
  | mul a b => exact .inl ⟨.mul, a, b, rfl⟩
  | div a b => exact .inl ⟨.div, a, b, rfl⟩
  | mod a b => exact .inl ⟨.mod, a, b, rfl⟩
  | shl a b => exact .inl ⟨.shl, a, b, rfl⟩
  | shr a b => exact .inl ⟨.shr, a, b, rfl⟩
  | and a b => exact .inl ⟨.and, a, b, rfl⟩
  | bor a b => exact .inl ⟨.bor, a, b, rfl⟩
  | xor a b => exact .inl ⟨.xor, a, b, rfl⟩
  | ife a b => exact .inl ⟨.ife, a, b, rfl⟩
  | ifn a b => exact .inl ⟨.ifn, a, b, rfl⟩
  | ifg a b => exact .inl ⟨.ifg, a, b, rfl⟩
  | ifb a b => exact .inl ⟨.ifb, a, b, rfl⟩
  | jsr x => exact .inr (.inl ⟨x, rfl⟩)
  | reservedExtended e x => exact .inr (.inr ⟨e, x, rfl⟩)

/-! ### Trailing counts -/

theorem trailing_le_one (f : BitVec 6) : trailing f ≤ 1 := by unfold trailing; split <;> omega

/-- The three ways `decodeInstr` answers, with the length it gives (R70). -/
theorem decodeInstr_cases (w t1 t2 : Word) :
    (opcodeField w = 0 ∧ fieldA w ≠ jsrCode ∧
      decodeInstr w t1 t2 = (.reservedExtended (fieldA w) (fieldB w), 0)) ∨
    (opcodeField w = 0 ∧ fieldA w = jsrCode ∧
      decodeInstr w t1 t2 = (.jsr (decodeOperand (fieldB w) t1), 1 + trailing (fieldB w))) ∨
    (∃ op, BasicOp.ofCode (opcodeField w) = some op ∧ op.code = opcodeField w ∧
      decodeInstr w t1 t2 =
        (op.instr (decodeOperand (fieldA w) t1)
          (decodeOperand (fieldB w) (if trailing (fieldA w) = 0 then t1 else t2)),
         1 + trailing (fieldA w) + trailing (fieldB w))) := by
  unfold decodeInstr
  cases h : BasicOp.ofCode (opcodeField w) with
  | none =>
    have h0 := BasicOp.ofCode_eq_none.1 h
    by_cases hj : fieldA w = jsrCode
    · exact .inr (.inl ⟨h0, hj, by simp [hj]⟩)
    · exact .inl ⟨h0, hj, by simp [hj]⟩
  | some op => exact .inr (.inr ⟨op, rfl, BasicOp.code_of_ofCode h, rfl⟩)

/-- Decoding an operand's own field with its own trailing word gives it back (R75). -/
theorem decodeOperand_encodeOperand {x : Operand} (h : x.wf = true) (t : Word) :
    decodeOperand (encodeOperand x).1 ((encodeOperand x).2.getD 0 t) = x := by
  cases x with
  | reg r => cases r <;> rfl
  | regIndirect r => cases r <;> rfl
  | regIndirectOffset r k => cases r <;> rfl
  | pop => rfl
  | peek => rfl
  | push => rfl
  | sp => rfl
  | pc => rfl
  | o => rfl
  | memDirect k => rfl
  | immExtended k => rfl
  | immInline n =>
    have hn : n.toNat ≤ 31 := of_decide_eq_true h
    have hm : (32 + n.toNat) % 64 = 32 + n.toNat := Nat.mod_eq_of_lt (by omega)
    simp only [encodeOperand, decodeOperand, BitVec.toNat_ofNat]
    rw [show (0x20 + n.toNat) % 2 ^ 6 = 32 + n.toNat from hm]
    simp only [show ¬ 32 + n.toNat ≤ 7 by omega, show ¬ 32 + n.toNat ≤ 15 by omega,
      show ¬ 32 + n.toNat ≤ 23 by omega, show 32 + n.toNat ≠ 24 by omega,
      show 32 + n.toNat ≠ 25 by omega, show 32 + n.toNat ≠ 26 by omega,
      show 32 + n.toNat ≠ 27 by omega, show 32 + n.toNat ≠ 28 by omega,
      show 32 + n.toNat ≠ 29 by omega, show 32 + n.toNat ≠ 30 by omega,
      show 32 + n.toNat ≠ 31 by omega, if_false, Nat.add_sub_cancel_left]
    simp [narrow]

/-- An operand's field says how many trailing words it has (R66, R75). -/
theorem trailing_encodeOperand {x : Operand} (h : x.wf = true) :
    trailing (encodeOperand x).1 = (encodeOperand x).2.length := by
  cases x with
  | reg r => cases r <;> rfl
  | regIndirect r => cases r <;> rfl
  | regIndirectOffset r k => cases r <;> rfl
  | pop => rfl
  | peek => rfl
  | push => rfl
  | sp => rfl
  | pc => rfl
  | o => rfl
  | memDirect k => rfl
  | immExtended k => rfl
  | immInline n =>
    have hn : n.toNat ≤ 31 := of_decide_eq_true h
    have hm : (0x20 + n.toNat) % 2 ^ 6 = 32 + n.toNat := Nat.mod_eq_of_lt (by omega)
    simp only [encodeOperand, trailing, BitVec.toNat_ofNat, hm, List.length_nil]
    rw [if_neg (by omega)]

/-- Encoding a field's operand gives the field and its trailing word back, and the operand is well formed
(R75). -/
theorem encodeOperand_decodeOperand (f : BitVec 6) (t : Word) :
    encodeOperand (decodeOperand f t) = (f, if trailing f = 0 then [] else [t]) ∧
      (decodeOperand f t).wf = true := by
  have hf := f.isLt
  by_cases h : 0x20 ≤ f.toNat
  · have e : decodeOperand f t = .immInline (narrow (f.toNat - 0x20)) := by
      simp only [decodeOperand]
      repeat rw [if_neg (by omega)]
    have ht : trailing f = 0 := by
      unfold trailing
      rw [if_neg (by omega)]
    rw [e, ht]
    constructor
    · simp only [encodeOperand, if_true]
      congr 1
      apply BitVec.eq_of_toNat_eq
      simp only [BitVec.toNat_ofNat, narrow]
      omega
    · simp only [Operand.wf, Config.maxInline, narrow, BitVec.toNat_ofNat, decide_eq_true_eq]
      omega
  · obtain ⟨n, rfl⟩ : ∃ n : Fin 32, f = BitVec.ofNat 6 n.val := ⟨⟨f.toNat, by omega⟩, by simp⟩
    clear h hf
    revert t
    fin_cases n <;> exact fun t => ⟨rfl, rfl⟩

end Sys2Proof
end

