-- ==== Sys2Proof/Laws/State.lean ====
section
/-! SUPPORT. One lemma per field per update of State, so that no later proof unfolds a record update. -/

namespace Sys2Proof.Machine

@[simp] theorem State.setReg_regs (s : State) (r : Reg) (v : Word) : (s.setReg r v).regs = s.regs.set r v := rfl
@[simp] theorem State.setReg_sp (s : State) (r : Reg) (v : Word) : (s.setReg r v).sp = s.sp := rfl
@[simp] theorem State.setReg_pc (s : State) (r : Reg) (v : Word) : (s.setReg r v).pc = s.pc := rfl
@[simp] theorem State.setReg_o (s : State) (r : Reg) (v : Word) : (s.setReg r v).o = s.o := rfl
@[simp] theorem State.setReg_mem (s : State) (r : Reg) (v : Word) : (s.setReg r v).mem = s.mem := rfl
@[simp] theorem State.setReg_skipNext (s : State) (r : Reg) (v : Word) : (s.setReg r v).skipNext = s.skipNext := rfl
@[simp] theorem State.setReg_lastPc (s : State) (r : Reg) (v : Word) : (s.setReg r v).lastPc = s.lastPc := rfl
@[simp] theorem State.setReg_faulted (s : State) (r : Reg) (v : Word) : (s.setReg r v).faulted = s.faulted := rfl

@[simp] theorem State.setSp_regs (s : State) (v : Word) : (s.setSp v).regs = s.regs := rfl
@[simp] theorem State.setSp_sp (s : State) (v : Word) : (s.setSp v).sp = v := rfl
@[simp] theorem State.setSp_pc (s : State) (v : Word) : (s.setSp v).pc = s.pc := rfl
@[simp] theorem State.setSp_o (s : State) (v : Word) : (s.setSp v).o = s.o := rfl
@[simp] theorem State.setSp_mem (s : State) (v : Word) : (s.setSp v).mem = s.mem := rfl
@[simp] theorem State.setSp_skipNext (s : State) (v : Word) : (s.setSp v).skipNext = s.skipNext := rfl
@[simp] theorem State.setSp_lastPc (s : State) (v : Word) : (s.setSp v).lastPc = s.lastPc := rfl
@[simp] theorem State.setSp_faulted (s : State) (v : Word) : (s.setSp v).faulted = s.faulted := rfl

@[simp] theorem State.setPc_regs (s : State) (v : Word) : (s.setPc v).regs = s.regs := rfl
@[simp] theorem State.setPc_sp (s : State) (v : Word) : (s.setPc v).sp = s.sp := rfl
@[simp] theorem State.setPc_pc (s : State) (v : Word) : (s.setPc v).pc = v := rfl
@[simp] theorem State.setPc_o (s : State) (v : Word) : (s.setPc v).o = s.o := rfl
@[simp] theorem State.setPc_mem (s : State) (v : Word) : (s.setPc v).mem = s.mem := rfl
@[simp] theorem State.setPc_skipNext (s : State) (v : Word) : (s.setPc v).skipNext = s.skipNext := rfl
@[simp] theorem State.setPc_lastPc (s : State) (v : Word) : (s.setPc v).lastPc = s.lastPc := rfl
@[simp] theorem State.setPc_faulted (s : State) (v : Word) : (s.setPc v).faulted = s.faulted := rfl

@[simp] theorem State.setO_regs (s : State) (v : Word) : (s.setO v).regs = s.regs := rfl
@[simp] theorem State.setO_sp (s : State) (v : Word) : (s.setO v).sp = s.sp := rfl
@[simp] theorem State.setO_pc (s : State) (v : Word) : (s.setO v).pc = s.pc := rfl
@[simp] theorem State.setO_o (s : State) (v : Word) : (s.setO v).o = v := rfl
@[simp] theorem State.setO_mem (s : State) (v : Word) : (s.setO v).mem = s.mem := rfl
@[simp] theorem State.setO_skipNext (s : State) (v : Word) : (s.setO v).skipNext = s.skipNext := rfl
@[simp] theorem State.setO_lastPc (s : State) (v : Word) : (s.setO v).lastPc = s.lastPc := rfl
@[simp] theorem State.setO_faulted (s : State) (v : Word) : (s.setO v).faulted = s.faulted := rfl

@[simp] theorem State.setMem_regs (s : State) (m : Memory) : (s.setMem m).regs = s.regs := rfl
@[simp] theorem State.setMem_sp (s : State) (m : Memory) : (s.setMem m).sp = s.sp := rfl
@[simp] theorem State.setMem_pc (s : State) (m : Memory) : (s.setMem m).pc = s.pc := rfl
@[simp] theorem State.setMem_o (s : State) (m : Memory) : (s.setMem m).o = s.o := rfl
@[simp] theorem State.setMem_mem (s : State) (m : Memory) : (s.setMem m).mem = m := rfl
@[simp] theorem State.setMem_skipNext (s : State) (m : Memory) : (s.setMem m).skipNext = s.skipNext := rfl
@[simp] theorem State.setMem_lastPc (s : State) (m : Memory) : (s.setMem m).lastPc = s.lastPc := rfl
@[simp] theorem State.setMem_faulted (s : State) (m : Memory) : (s.setMem m).faulted = s.faulted := rfl

@[simp] theorem State.setSkip_regs (s : State) (b : Bool) : (s.setSkip b).regs = s.regs := rfl
@[simp] theorem State.setSkip_sp (s : State) (b : Bool) : (s.setSkip b).sp = s.sp := rfl
@[simp] theorem State.setSkip_pc (s : State) (b : Bool) : (s.setSkip b).pc = s.pc := rfl
@[simp] theorem State.setSkip_o (s : State) (b : Bool) : (s.setSkip b).o = s.o := rfl
@[simp] theorem State.setSkip_mem (s : State) (b : Bool) : (s.setSkip b).mem = s.mem := rfl
@[simp] theorem State.setSkip_skipNext (s : State) (b : Bool) : (s.setSkip b).skipNext = b := rfl
@[simp] theorem State.setSkip_lastPc (s : State) (b : Bool) : (s.setSkip b).lastPc = s.lastPc := rfl
@[simp] theorem State.setSkip_faulted (s : State) (b : Bool) : (s.setSkip b).faulted = s.faulted := rfl

@[simp] theorem State.setLastPc_regs (s : State) (p : Option Word) : (s.setLastPc p).regs = s.regs := rfl
@[simp] theorem State.setLastPc_sp (s : State) (p : Option Word) : (s.setLastPc p).sp = s.sp := rfl
@[simp] theorem State.setLastPc_pc (s : State) (p : Option Word) : (s.setLastPc p).pc = s.pc := rfl
@[simp] theorem State.setLastPc_o (s : State) (p : Option Word) : (s.setLastPc p).o = s.o := rfl
@[simp] theorem State.setLastPc_mem (s : State) (p : Option Word) : (s.setLastPc p).mem = s.mem := rfl
@[simp] theorem State.setLastPc_skipNext (s : State) (p : Option Word) : (s.setLastPc p).skipNext = s.skipNext := rfl
@[simp] theorem State.setLastPc_lastPc (s : State) (p : Option Word) : (s.setLastPc p).lastPc = p := rfl
@[simp] theorem State.setLastPc_faulted (s : State) (p : Option Word) : (s.setLastPc p).faulted = s.faulted := rfl

@[simp] theorem State.setFaulted_regs (s : State) (f : Option (Fault × Word)) : (s.setFaulted f).regs = s.regs := rfl
@[simp] theorem State.setFaulted_sp (s : State) (f : Option (Fault × Word)) : (s.setFaulted f).sp = s.sp := rfl
@[simp] theorem State.setFaulted_pc (s : State) (f : Option (Fault × Word)) : (s.setFaulted f).pc = s.pc := rfl
@[simp] theorem State.setFaulted_o (s : State) (f : Option (Fault × Word)) : (s.setFaulted f).o = s.o := rfl
@[simp] theorem State.setFaulted_mem (s : State) (f : Option (Fault × Word)) : (s.setFaulted f).mem = s.mem := rfl
@[simp] theorem State.setFaulted_skipNext (s : State) (f : Option (Fault × Word)) : (s.setFaulted f).skipNext = s.skipNext := rfl
@[simp] theorem State.setFaulted_lastPc (s : State) (f : Option (Fault × Word)) : (s.setFaulted f).lastPc = s.lastPc := rfl
@[simp] theorem State.setFaulted_faulted (s : State) (f : Option (Fault × Word)) : (s.setFaulted f).faulted = f := rfl

@[simp] theorem State.writeMem_regs (s : State) (a v : Word) : (s.writeMem a v).regs = s.regs := rfl
@[simp] theorem State.writeMem_sp (s : State) (a v : Word) : (s.writeMem a v).sp = s.sp := rfl
@[simp] theorem State.writeMem_pc (s : State) (a v : Word) : (s.writeMem a v).pc = s.pc := rfl
@[simp] theorem State.writeMem_o (s : State) (a v : Word) : (s.writeMem a v).o = s.o := rfl
@[simp] theorem State.writeMem_mem (s : State) (a v : Word) : (s.writeMem a v).mem = s.mem.write a v := rfl
@[simp] theorem State.writeMem_skipNext (s : State) (a v : Word) : (s.writeMem a v).skipNext = s.skipNext := rfl
@[simp] theorem State.writeMem_lastPc (s : State) (a v : Word) : (s.writeMem a v).lastPc = s.lastPc := rfl
@[simp] theorem State.writeMem_faulted (s : State) (a v : Word) : (s.writeMem a v).faulted = s.faulted := rfl

@[simp] theorem State.pushReturn_regs (s : State) : s.pushReturn.regs = s.regs := rfl
@[simp] theorem State.pushReturn_sp (s : State) : s.pushReturn.sp = s.sp - 1 := rfl
@[simp] theorem State.pushReturn_pc (s : State) : s.pushReturn.pc = s.pc := rfl
@[simp] theorem State.pushReturn_o (s : State) : s.pushReturn.o = s.o := rfl
@[simp] theorem State.pushReturn_mem (s : State) : s.pushReturn.mem = s.mem.write s.sp s.pc := rfl
@[simp] theorem State.pushReturn_skipNext (s : State) : s.pushReturn.skipNext = s.skipNext := rfl
@[simp] theorem State.pushReturn_lastPc (s : State) : s.pushReturn.lastPc = s.lastPc := rfl
@[simp] theorem State.pushReturn_faulted (s : State) : s.pushReturn.faulted = s.faulted := rfl

@[simp] theorem State.takeFault_regs (s : State) (c : Fault) (w : Word) : (s.takeFault c w).regs = s.regs := rfl
@[simp] theorem State.takeFault_sp (s : State) (c : Fault) (w : Word) : (s.takeFault c w).sp = s.sp := rfl
@[simp] theorem State.takeFault_pc (s : State) (c : Fault) (w : Word) : (s.takeFault c w).pc = s.pc := rfl
@[simp] theorem State.takeFault_o (s : State) (c : Fault) (w : Word) : (s.takeFault c w).o = s.o := rfl
@[simp] theorem State.takeFault_mem (s : State) (c : Fault) (w : Word) : (s.takeFault c w).mem = s.mem := rfl
@[simp] theorem State.takeFault_skipNext (s : State) (c : Fault) (w : Word) : (s.takeFault c w).skipNext = s.skipNext := rfl
@[simp] theorem State.takeFault_lastPc (s : State) (c : Fault) (w : Word) : (s.takeFault c w).lastPc = s.lastPc := rfl
@[simp] theorem State.takeFault_faulted (s : State) (c : Fault) (w : Word) : (s.takeFault c w).faulted = some (c, w) := rfl

@[simp] theorem State.setReg_readMem (s : State) (r : Reg) (v : Word) (q : Word) : (s.setReg r v).readMem q = s.readMem q := rfl
@[simp] theorem State.setSp_readMem (s : State) (v : Word) (q : Word) : (s.setSp v).readMem q = s.readMem q := rfl
@[simp] theorem State.setPc_readMem (s : State) (v : Word) (q : Word) : (s.setPc v).readMem q = s.readMem q := rfl
@[simp] theorem State.setO_readMem (s : State) (v : Word) (q : Word) : (s.setO v).readMem q = s.readMem q := rfl
@[simp] theorem State.setSkip_readMem (s : State) (b : Bool) (q : Word) : (s.setSkip b).readMem q = s.readMem q := rfl
@[simp] theorem State.setLastPc_readMem (s : State) (p : Option Word) (q : Word) : (s.setLastPc p).readMem q = s.readMem q := rfl
@[simp] theorem State.setFaulted_readMem (s : State) (f : Option (Fault × Word)) (q : Word) : (s.setFaulted f).readMem q = s.readMem q := rfl
@[simp] theorem State.takeFault_readMem (s : State) (c : Fault) (w q : Word) : (s.takeFault c w).readMem q = s.readMem q := rfl

/-- Two states with equal fields are equal. -/
theorem State.eq_of_fields {s t : State} (h1 : s.regs = t.regs) (h2 : s.sp = t.sp) (h3 : s.pc = t.pc)
    (h4 : s.o = t.o) (h5 : s.mem = t.mem) (h6 : s.skipNext = t.skipNext) (h7 : s.lastPc = t.lastPc)
    (h8 : s.faulted = t.faulted) : s = t := by
  cases s; cases t; simp_all

theorem RegFile.get_set_same (f : RegFile) (r : Reg) (v : Word) : (f.set r v).get r = v := by
  cases r <;> rfl

theorem RegFile.get_set_other (f : RegFile) {r q : Reg} (v : Word) (h : q ≠ r) :
    (f.set r v).get q = f.get q := by
  cases r <;> cases q <;> first | rfl | exact absurd rfl h

/-- A register file is its eight registers. -/
theorem RegFile.eq_of_get {f g : RegFile} (h : ∀ r, f.get r = g.get r) : f = g := by
  have ha := h .a; have hb := h .b; have hc := h .c; have hx := h .x
  have hy := h .y; have hz := h .z; have hi := h .i; have hj := h .j
  cases f; cases g; simp_all [RegFile.get]

end Sys2Proof.Machine
end

