-- ==== Sys2Proof/Laws/Memory.lean ====
section
/-! SUPPORT. The laws of memory: every operation keeps the canonical form, a read after a write, and
memories that read alike are equal. -/

namespace Sys2Proof.Machine

/-! ### The canonical form -/

theorem Memory.wfFrom_cons {lo k : Nat} {v : Word} {m : Memory} :
    Memory.wfFrom lo ((k, v) :: m) = true ↔
      lo ≤ k ∧ k < Config.memoryWords ∧ v ≠ Memory.unlisted ∧ Memory.wfFrom (k + 1) m = true := by
  simp [Memory.wfFrom, and_assoc]

theorem Memory.wfFrom_mono {lo hi : Nat} (h : lo ≤ hi) :
    ∀ {m : Memory}, Memory.wfFrom hi m = true → Memory.wfFrom lo m = true
  | [], _ => rfl
  | (_, _) :: _, hw => by
    rw [Memory.wfFrom_cons] at hw ⊢
    exact ⟨h.trans hw.1, hw.2⟩

theorem Memory.put_wfFrom {v : Word} :
    ∀ {m : Memory} {lo k : Nat}, lo ≤ k → k < Config.memoryWords →
      Memory.wfFrom lo m = true → Memory.wfFrom lo (Memory.put m k v) = true
  | [], lo, k, hlo, hk, _ => by
    unfold Memory.put
    split
    · rfl
    · exact Memory.wfFrom_cons.2 ⟨hlo, hk, ‹_›, rfl⟩
  | (k', v') :: rest, lo, k, hlo, hk, hw => by
    have ⟨h1, h2, h3, h4⟩ := Memory.wfFrom_cons.1 hw
    unfold Memory.put
    split
    · next hlt =>
      split
      · exact hw
      · exact Memory.wfFrom_cons.2 ⟨hlo, hk, ‹_›, Memory.wfFrom_cons.2 ⟨hlt, h2, h3, h4⟩⟩
    · split
      · next heq =>
        subst heq
        split
        · exact Memory.wfFrom_mono (by omega) h4
        · exact Memory.wfFrom_cons.2 ⟨h1, h2, ‹_›, h4⟩
      · exact Memory.wfFrom_cons.2 ⟨h1, h2, h3, Memory.put_wfFrom (by omega) hk h4⟩

/-- A write keeps the canonical form. -/
theorem Memory.write_wf {m : Memory} (h : m.wf = true) (addr v : Word) : (m.write addr v).wf = true :=
  Memory.put_wfFrom (Nat.zero_le _) addr.isLt h

theorem Memory.writeList_wf :
    ∀ (ws : List Word) {m : Memory} (addr : Word), m.wf = true → (m.writeList addr ws).wf = true
  | [], _, _, h => h
  | w :: ws, _, addr, h => Memory.writeList_wf ws (addr + 1) (Memory.write_wf h addr w)

/-! ### Reads -/

/-- A key below every listed one reads as unlisted. -/
theorem Memory.lookup_below {k : Nat} :
    ∀ {m : Memory} {lo : Nat}, Memory.wfFrom lo m = true → k < lo → Memory.lookup m k = Memory.unlisted
  | [], _, _, _ => rfl
  | (k', v') :: rest, lo, hw, hlt => by
    have ⟨h1, _, _, h4⟩ := Memory.wfFrom_cons.1 hw
    unfold Memory.lookup
    rw [if_neg (by omega)]
    exact Memory.lookup_below h4 (by omega)

theorem Memory.lookup_put_other {v : Word} {k q : Nat} (hne : q ≠ k) :
    ∀ {m : Memory} , Memory.lookup (Memory.put m k v) q = Memory.lookup m q
  | [] => by
    unfold Memory.put
    split
    · rfl
    · simp [Memory.lookup, hne]
  | (k', v') :: rest => by
    unfold Memory.put
    split
    · split
      · rfl
      · simp [Memory.lookup, hne]
    · split
      · next heq =>
        subst heq
        split <;> simp [Memory.lookup, hne]
      · simp only [Memory.lookup]
        rw [Memory.lookup_put_other hne]

theorem Memory.lookup_put_same {v : Word} {k : Nat} :
    ∀ {m : Memory} {lo : Nat}, Memory.wfFrom lo m = true → Memory.lookup (Memory.put m k v) k = v
  | [], _, _ => by
    unfold Memory.put
    split
    · next h => exact h.symm
    · simp [Memory.lookup]
  | (k', v') :: rest, lo, hw => by
    have ⟨_, _, _, h4⟩ := Memory.wfFrom_cons.1 hw
    unfold Memory.put
    split
    · next hlt =>
      split
      · next hv =>
        unfold Memory.lookup
        rw [if_neg (by omega), Memory.lookup_below h4 (by omega), hv]
      · simp [Memory.lookup]
    · split
      · next heq =>
        subst heq
        split
        · next hv => rw [Memory.lookup_below h4 (by omega), hv]
        · simp [Memory.lookup]
      · next hne =>
        simp only [Memory.lookup]
        rw [if_neg hne]
        exact Memory.lookup_put_same h4

/-- A read of the address just written gives the word written (R49). -/
theorem Memory.read_write_same {m : Memory} (h : m.wf = true) (addr v : Word) :
    (m.write addr v).read addr = v :=
  Memory.lookup_put_same h

/-- A write leaves every other address alone. -/
theorem Memory.read_write_other (m : Memory) {addr q : Word} (v : Word) (h : q ≠ addr) :
    (m.write addr v).read q = m.read q :=
  Memory.lookup_put_other (fun e => h (BitVec.eq_of_toNat_eq e))

@[simp] theorem Memory.read_nil (addr : Word) : Memory.read [] addr = 0 := rfl

/-! ### Extensionality -/

theorem Memory.eq_of_lookup :
    ∀ {m n : Memory} {lo : Nat}, Memory.wfFrom lo m = true → Memory.wfFrom lo n = true →
      (∀ k, k < Config.memoryWords → Memory.lookup m k = Memory.lookup n k) → m = n
  | [], [], _, _, _, _ => rfl
  | [], (k, v) :: n, _, _, hn, h => by
    have ⟨_, h2, h3, _⟩ := Memory.wfFrom_cons.1 hn
    exact absurd (by simpa [Memory.lookup] using (h k h2).symm) h3
  | (k, v) :: m, [], _, hm, _, h => by
    have ⟨_, h2, h3, _⟩ := Memory.wfFrom_cons.1 hm
    exact absurd (by simpa [Memory.lookup] using h k h2) h3
  | (k, v) :: m, (k', v') :: n, _, hm, hn, h => by
    have ⟨_, a2, a3, a4⟩ := Memory.wfFrom_cons.1 hm
    have ⟨_, b2, b3, b4⟩ := Memory.wfFrom_cons.1 hn
    have hk := h k a2
    have hk' := h k' b2
    have heq : k = k' := by
      rcases Nat.lt_trichotomy k k' with hlt | heq | hlt
      · have hb : Memory.wfFrom k' ((k', v') :: n) = true :=
          Memory.wfFrom_cons.2 ⟨le_refl _, b2, b3, b4⟩
        rw [Memory.lookup_below hb hlt] at hk
        exact absurd (by simpa [Memory.lookup] using hk) a3
      · exact heq
      · have ha : Memory.wfFrom k ((k, v) :: m) = true :=
          Memory.wfFrom_cons.2 ⟨le_refl _, a2, a3, a4⟩
        rw [Memory.lookup_below ha hlt] at hk'
        exact absurd (by simpa [Memory.lookup] using hk'.symm) b3
    subst heq
    have hv : v = v' := by simpa [Memory.lookup] using hk
    subst hv
    have : m = n := Memory.eq_of_lookup a4 b4 (fun q hq => by
      by_cases hqk : q = k
      · rw [hqk, Memory.lookup_below a4 (by omega), Memory.lookup_below b4 (by omega)]
      · have := h q hq
        simpa [Memory.lookup, hqk] using this)
    rw [this]

/-- Canonical memories that read alike are equal. -/
theorem Memory.eq_of_read {m n : Memory} (hm : m.wf = true) (hn : n.wf = true)
    (h : ∀ addr, m.read addr = n.read addr) : m = n :=
  Memory.eq_of_lookup hm hn (fun k hk => by
    have hlt : k < 65536 := hk
    have := h (narrow k)
    simpa [Memory.read, BitVec.toNat_ofNat, Nat.mod_eq_of_lt hlt] using this)

/-- Writing the word an address already holds changes nothing. -/
theorem Memory.write_read_self {m : Memory} (h : m.wf = true) (addr : Word) :
    m.write addr (m.read addr) = m :=
  Memory.eq_of_read (Memory.write_wf h addr _) h (fun q => by
    by_cases hq : q = addr
    · rw [hq, Memory.read_write_same h]
    · rw [Memory.read_write_other m _ hq])

/-! ### Copying words in (R191) -/

/-- An address none of the words is copied to reads as before. -/
theorem Memory.read_writeList_other :
    ∀ (ws : List Word) (m : Memory) (addr q : Word), (∀ k, k < ws.length → q ≠ addr + narrow k) →
      (m.writeList addr ws).read q = m.read q
  | [], _, _, _, _ => rfl
  | w :: ws, m, addr, q, h => by
    have hrest : ∀ k, k < ws.length → q ≠ addr + 1 + narrow k := fun k hk e =>
      h (k + 1) (by simp only [List.length_cons]; omega)
        (by rw [e]; apply BitVec.eq_of_toNat_eq; simp; omega)
    rw [Memory.writeList, Memory.read_writeList_other ws _ _ _ hrest]
    exact Memory.read_write_other _ _ (by simpa using h 0 (by simp))

/-- Each word is where it was copied to. -/
theorem Memory.read_writeList_get :
    ∀ (ws : List Word) (m : Memory) (addr : Word), m.wf = true → ws.length ≤ Config.memoryWords →
      ∀ (k : Nat) (h : k < ws.length), (m.writeList addr ws).read (addr + narrow k) = ws[k]
  | [], _, _, _, _, _, h => absurd h (by simp)
  | w :: ws, m, addr, hm, hl, 0, h => by
    have hl' : ws.length < 65536 := hl
    rw [Memory.writeList, Memory.read_writeList_other]
    · simpa using Memory.read_write_same hm addr w
    · intro j hj e
      have := congrArg BitVec.toNat e
      simp only [BitVec.toNat_add, BitVec.toNat_ofNat] at this
      have := addr.isLt
      have h1 : (1 : Word).toNat = 1 := rfl
      omega
  | w :: ws, m, addr, hm, hl, k + 1, h => by
    have hl' : ws.length < 65536 := hl
    have := Memory.read_writeList_get ws (m.write addr w) (addr + 1) (Memory.write_wf hm _ _)
      (Nat.le_of_lt hl') k (by simpa using h)
    rw [Memory.writeList, show addr + narrow (k + 1) = addr + 1 + narrow k by
      apply BitVec.eq_of_toNat_eq; simp; omega]
    simpa using this

end Sys2Proof.Machine
end

