-- ==== Sys2Proof/Laws/Operands.lean ====
section
/-! SUPPORT. What resolving, reading and writing operands can do, said once: resolving moves SP at most,
and a write changes its own location only. -/

namespace Sys2Proof.Machine

/-! ### Resolving -/

@[simp] theorem resolve_regs (op : Operand) (s : State) : (resolve op s).1.regs = s.regs := by
  cases op <;> rfl

@[simp] theorem resolve_pc (op : Operand) (s : State) : (resolve op s).1.pc = s.pc := by
  cases op <;> rfl

@[simp] theorem resolve_o (op : Operand) (s : State) : (resolve op s).1.o = s.o := by
  cases op <;> rfl

@[simp] theorem resolve_mem (op : Operand) (s : State) : (resolve op s).1.mem = s.mem := by
  cases op <;> rfl

@[simp] theorem resolve_skipNext (op : Operand) (s : State) : (resolve op s).1.skipNext = s.skipNext := by
  cases op <;> rfl

@[simp] theorem resolve_lastPc (op : Operand) (s : State) : (resolve op s).1.lastPc = s.lastPc := by
  cases op <;> rfl

@[simp] theorem resolve_faulted (op : Operand) (s : State) : (resolve op s).1.faulted = s.faulted := by
  cases op <;> rfl

@[simp] theorem resolve_readMem (op : Operand) (s : State) (q : Word) :
    (resolve op s).1.readMem q = s.readMem q := by
  cases op <;> rfl

/-- Resolving changes SP and nothing else. -/
theorem resolve_state (op : Operand) (s : State) :
    (resolve op s).1 = s.setSp (resolve op s).1.sp := by cases op <;> rfl

/-- Only Pop and Push move SP (R112). -/
theorem resolve_sp {op : Operand} (h : op.movesSp = false) (s : State) : (resolve op s).1.sp = s.sp := by
  cases op <;> first | rfl | cases h

@[simp] theorem getValue_fst (op : Operand) (s : State) : (getValue op s).1 = (resolve op s).1 := rfl

@[simp] theorem getValue_snd (op : Operand) (s : State) :
    (getValue op s).2 = readLoc (resolve op s).2 (resolve op s).1 := rfl

/-! ### The operand phase (R106) -/

theorem gather_state (a b : Operand) (s : State) :
    (gather a b s).state = (resolve a (resolve b s).1).1 := rfl

theorem gather_loc (a b : Operand) (s : State) :
    (gather a b s).loc = (resolve a (resolve b s).1).2 := rfl

theorem gather_vA (a b : Operand) (s : State) :
    (gather a b s).vA = readLoc (gather a b s).loc (gather a b s).state := rfl

theorem gather_vB (a b : Operand) (s : State) : (gather a b s).vB = (getValue b s).2 := rfl

@[simp] theorem gather_state_regs (a b : Operand) (s : State) :
    (gather a b s).state.regs = s.regs := by simp [gather_state]

@[simp] theorem gather_state_pc (a b : Operand) (s : State) :
    (gather a b s).state.pc = s.pc := by simp [gather_state]

@[simp] theorem gather_state_o (a b : Operand) (s : State) :
    (gather a b s).state.o = s.o := by simp [gather_state]

@[simp] theorem gather_state_mem (a b : Operand) (s : State) :
    (gather a b s).state.mem = s.mem := by simp [gather_state]

@[simp] theorem gather_state_skipNext (a b : Operand) (s : State) :
    (gather a b s).state.skipNext = s.skipNext := by simp [gather_state]

@[simp] theorem gather_state_lastPc (a b : Operand) (s : State) :
    (gather a b s).state.lastPc = s.lastPc := by simp [gather_state]

@[simp] theorem gather_state_faulted (a b : Operand) (s : State) :
    (gather a b s).state.faulted = s.faulted := by simp [gather_state]

@[simp] theorem gather_state_readMem (a b : Operand) (s : State) (q : Word) :
    (gather a b s).state.readMem q = s.readMem q := by simp [gather_state]

theorem gather_state_sp {a b : Operand} (ha : a.movesSp = false) (hb : b.movesSp = false) (s : State) :
    (gather a b s).state.sp = s.sp := by rw [gather_state, resolve_sp ha, resolve_sp hb]

/-! ### Writing (R113) -/

@[simp] theorem writeLoc_skipNext (l : Loc) (v : Word) (s : State) : (writeLoc l v s).skipNext = s.skipNext := by
  cases l <;> rfl

@[simp] theorem writeLoc_lastPc (l : Loc) (v : Word) (s : State) : (writeLoc l v s).lastPc = s.lastPc := by
  cases l <;> rfl

@[simp] theorem writeLoc_faulted (l : Loc) (v : Word) (s : State) : (writeLoc l v s).faulted = s.faulted := by
  cases l <;> rfl

theorem writeLoc_sp {l : Loc} (h : l ≠ .sp) (v : Word) (s : State) : (writeLoc l v s).sp = s.sp := by
  cases l <;> first | rfl | exact absurd rfl h

theorem writeLoc_pc {l : Loc} (h : l ≠ .pc) (v : Word) (s : State) : (writeLoc l v s).pc = s.pc := by
  cases l <;> first | rfl | exact absurd rfl h

theorem writeLoc_o {l : Loc} (h : l ≠ .o) (v : Word) (s : State) : (writeLoc l v s).o = s.o := by
  cases l <;> first | rfl | exact absurd rfl h

theorem writeLoc_get {l : Loc} {r : Reg} (h : l ≠ .reg r) (v : Word) (s : State) :
    (writeLoc l v s).regs.get r = s.regs.get r := by
  cases l with
  | reg q => exact RegFile.get_set_other _ _ (fun e => h (e ▸ rfl))
  | sp => rfl
  | pc => rfl
  | o => rfl
  | mem addr => rfl
  | lit k => rfl

theorem writeLoc_readMem {l : Loc} {addr : Word} (h : l ≠ .mem addr) (v : Word) (s : State) :
    (writeLoc l v s).readMem addr = s.readMem addr := by
  cases l with
  | mem q => exact Memory.read_write_other _ _ (fun e => h (e ▸ rfl))
  | sp => rfl
  | pc => rfl
  | o => rfl
  | reg q => rfl
  | lit k => rfl

theorem writeLoc_wf (l : Loc) (v : Word) {s : State} (h : Memory.wf s.mem = true) :
    Memory.wf (writeLoc l v s).mem = true := by
  cases l with
  | mem q => exact Memory.write_wf h q v
  | sp => exact h
  | pc => exact h
  | o => exact h
  | reg q => exact h
  | lit k => exact h

/-! ### Locations of operands -/

theorem gather_loc_reg {a b : Operand} {r : Reg} {s : State} (h : (gather a b s).loc = .reg r) :
    a = .reg r := by
  cases a <;> first | (injection h with h; rw [h]) | cases h

theorem gather_loc_sp {a b : Operand} {s : State} (h : (gather a b s).loc = .sp) : a = .sp := by
  cases a <;> first | rfl | cases h

theorem gather_loc_pc {a b : Operand} {s : State} (h : (gather a b s).loc = .pc) : a = .pc := by
  cases a <;> first | rfl | cases h

theorem gather_loc_o {a b : Operand} {s : State} (h : (gather a b s).loc = .o) : a = .o := by
  cases a <;> first | rfl | cases h

theorem resolve_loc_o {op : Operand} {s : State} (h : (resolve op s).2 = .o) : op = .o := by
  cases op <;> first | rfl | cases h

/-! ### Executing a basic instruction -/

/-- What `runAlu` leaves: the operand phase, then O, then A's location (R106, R107). -/
theorem runAlu_eq (f : AluOp) (a b : Operand) (s : State) :
    runAlu f a b s =
      writeLoc (gather a b s).loc (f (gather a b s).vA (gather a b s).vB s.o).1
        ((gather a b s).state.setO (f (gather a b s).vA (gather a b s).vB s.o).2) := by
  simp [runAlu]

theorem runAlu_wf (f : AluOp) (a b : Operand) {s : State} (h : Memory.wf s.mem = true) :
    Memory.wf (runAlu f a b s).mem = true :=
  writeLoc_wf _ _ (by simpa using h)

@[simp] theorem runAlu_skipNext (f : AluOp) (a b : Operand) (s : State) :
    (runAlu f a b s).skipNext = s.skipNext := by simp [runAlu]

@[simp] theorem runAlu_lastPc (f : AluOp) (a b : Operand) (s : State) :
    (runAlu f a b s).lastPc = s.lastPc := by simp [runAlu]

@[simp] theorem runAlu_faulted (f : AluOp) (a b : Operand) (s : State) :
    (runAlu f a b s).faulted = s.faulted := by simp [runAlu]

/-- A conditional leaves the operand phase's state, with skip_next set when its condition is false
(R106). -/
theorem runTest_eq (c : Cond) (a b : Operand) (s : State) :
    runTest c a b s =
      ((gather a b s).state).setSkip (s.skipNext || !c (gather a b s).vA (gather a b s).vB) := by
  have hs := gather_state_skipNext a b s
  unfold runTest
  cases h : c (gather a b s).vA (gather a b s).vB
  · simp only [h, Bool.false_eq_true, if_false, Bool.not_false, Bool.or_true]
  · simp only [h, if_true, Bool.not_true, Bool.or_false]
    exact State.eq_of_fields rfl rfl rfl rfl rfl hs rfl rfl

end Sys2Proof.Machine
end

