-- ==== Sys2Proof/Laws/PerInstr.lean ====
section
/-! SUPPORT. Statements made for each instruction: the encoder writes as many words as the opcode word
tells the decoder to expect (spec/30_encoding.md R60, R74). -/

/-- The number of words encoded is one more than the trailing words its opcode word calls for. -/
def Sys2Proof.Laws.EncodedLength.Statement (i : Sys2Proof.Instr) : Prop :=
  i.wf = true →
    (Sys2Proof.encode i).length = 1 + Sys2Proof.trailingCount ((Sys2Proof.encode i).getD 0 0)

namespace Sys2Proof

theorem encodedLength_basic (op : BasicOp) (a b : Operand) :
    Laws.EncodedLength.Statement (op.instr a b) := by
  intro hw
  rw [BasicOp.wf_instr, Bool.and_eq_true] at hw
  simp only [encode, BasicOp.shape_instr, List.getD_cons_zero, trailingCount, opcodeField_packWord,
    fieldA_packWord, fieldB_packWord, BasicOp.code_ne_zero, if_false, List.length_cons,
    List.length_append, trailing_encodeOperand hw.1, trailing_encodeOperand hw.2]
  omega

end Sys2Proof

theorem Sys2Proof.Laws.EncodedLength.set (a b : Sys2Proof.Operand) :
    Sys2Proof.Laws.EncodedLength.Statement (.set a b) := Sys2Proof.encodedLength_basic .set a b

theorem Sys2Proof.Laws.EncodedLength.add (a b : Sys2Proof.Operand) :
    Sys2Proof.Laws.EncodedLength.Statement (.add a b) := Sys2Proof.encodedLength_basic .add a b

theorem Sys2Proof.Laws.EncodedLength.sub (a b : Sys2Proof.Operand) :
    Sys2Proof.Laws.EncodedLength.Statement (.sub a b) := Sys2Proof.encodedLength_basic .sub a b

theorem Sys2Proof.Laws.EncodedLength.mul (a b : Sys2Proof.Operand) :
    Sys2Proof.Laws.EncodedLength.Statement (.mul a b) := Sys2Proof.encodedLength_basic .mul a b

theorem Sys2Proof.Laws.EncodedLength.div (a b : Sys2Proof.Operand) :
    Sys2Proof.Laws.EncodedLength.Statement (.div a b) := Sys2Proof.encodedLength_basic .div a b

theorem Sys2Proof.Laws.EncodedLength.mod (a b : Sys2Proof.Operand) :
    Sys2Proof.Laws.EncodedLength.Statement (.mod a b) := Sys2Proof.encodedLength_basic .mod a b

theorem Sys2Proof.Laws.EncodedLength.shl (a b : Sys2Proof.Operand) :
    Sys2Proof.Laws.EncodedLength.Statement (.shl a b) := Sys2Proof.encodedLength_basic .shl a b

theorem Sys2Proof.Laws.EncodedLength.shr (a b : Sys2Proof.Operand) :
    Sys2Proof.Laws.EncodedLength.Statement (.shr a b) := Sys2Proof.encodedLength_basic .shr a b

theorem Sys2Proof.Laws.EncodedLength.and (a b : Sys2Proof.Operand) :
    Sys2Proof.Laws.EncodedLength.Statement (.and a b) := Sys2Proof.encodedLength_basic .and a b

theorem Sys2Proof.Laws.EncodedLength.bor (a b : Sys2Proof.Operand) :
    Sys2Proof.Laws.EncodedLength.Statement (.bor a b) := Sys2Proof.encodedLength_basic .bor a b

theorem Sys2Proof.Laws.EncodedLength.xor (a b : Sys2Proof.Operand) :
    Sys2Proof.Laws.EncodedLength.Statement (.xor a b) := Sys2Proof.encodedLength_basic .xor a b

theorem Sys2Proof.Laws.EncodedLength.ife (a b : Sys2Proof.Operand) :
    Sys2Proof.Laws.EncodedLength.Statement (.ife a b) := Sys2Proof.encodedLength_basic .ife a b

theorem Sys2Proof.Laws.EncodedLength.ifn (a b : Sys2Proof.Operand) :
    Sys2Proof.Laws.EncodedLength.Statement (.ifn a b) := Sys2Proof.encodedLength_basic .ifn a b

theorem Sys2Proof.Laws.EncodedLength.ifg (a b : Sys2Proof.Operand) :
    Sys2Proof.Laws.EncodedLength.Statement (.ifg a b) := Sys2Proof.encodedLength_basic .ifg a b

theorem Sys2Proof.Laws.EncodedLength.ifb (a b : Sys2Proof.Operand) :
    Sys2Proof.Laws.EncodedLength.Statement (.ifb a b) := Sys2Proof.encodedLength_basic .ifb a b

theorem Sys2Proof.Laws.EncodedLength.jsr (x : Sys2Proof.Operand) :
    Sys2Proof.Laws.EncodedLength.Statement (.jsr x) := by
  intro hw
  simp only [Sys2Proof.encode, Sys2Proof.Instr.shape, List.getD_cons_zero, Sys2Proof.trailingCount,
    Sys2Proof.opcodeField_packWord, Sys2Proof.fieldA_packWord, Sys2Proof.fieldB_packWord, if_true,
    List.length_cons, Sys2Proof.trailing_encodeOperand (x := x) hw]
  omega

theorem Sys2Proof.Laws.EncodedLength.reservedExtended (e x : BitVec 6) :
    Sys2Proof.Laws.EncodedLength.Statement (.reservedExtended e x) := by
  intro hw
  have he : e ≠ Sys2Proof.jsrCode := of_decide_eq_true hw
  simp only [Sys2Proof.encode, Sys2Proof.Instr.shape, Sys2Proof.reservedWord, List.getD_cons_zero,
    Sys2Proof.trailingCount, Sys2Proof.opcodeField_packWord, Sys2Proof.fieldA_packWord, if_true, if_neg he,
    List.length_cons, List.length_nil]
end

