-- ==== Sys2Proof/Laws/Step.lean ====
section
/-! SUPPORT. What executing an instruction and making a step can do, said once; later proofs cite these
and do not unfold `exec`, `prepare` or `step`. -/

namespace Sys2Proof.Machine

/-! ### Executing -/

/-- What a basic opcode does with its inputs: an ALU operation that is written back, or a condition. -/
def basicEffect : BasicOp → AluOp ⊕ Cond
  | .set => .inl aluSet
  | .add => .inl aluAdd
  | .sub => .inl aluSub
  | .mul => .inl aluMul
  | .div => .inl aluDiv
  | .mod => .inl aluMod
  | .shl => .inl aluShl
  | .shr => .inl aluShr
  | .and => .inl aluAnd
  | .bor => .inl aluBor
  | .xor => .inl aluXor
  | .ife => .inr condIfe
  | .ifn => .inr condIfn
  | .ifg => .inr condIfg
  | .ifb => .inr condIfb

/-- The state a basic instruction leaves. -/
def runBasic (op : BasicOp) (a b : Operand) (s : State) : State :=
  match basicEffect op with
  | .inl f => runAlu f a b s
  | .inr c => runTest c a b s

@[simp] theorem exec_instr (op : BasicOp) (a b : Operand) (s : State) :
    exec (op.instr a b) s = .next (runBasic op a b s) := by cases op <;> rfl

@[simp] theorem exec_jsr (x : Operand) (s : State) :
    exec (.jsr x) s = .next ((getValue x s).1.pushReturn.setPc (getValue x s).2) := rfl

@[simp] theorem exec_reservedExtended (e x : BitVec 6) (s : State) :
    exec (.reservedExtended e x) s = .next (s.takeFault .unrecognizedExtended (reservedWord e x)) := rfl

/-- An opcode that writes A runs as an ALU operation; one that does not, as a test. -/
theorem runBasic_cases (op : BasicOp) :
    (op.writesA = true ∧ ∃ f, basicEffect op = .inl f) ∨
      (op.writesA = false ∧ ∃ c, basicEffect op = .inr c) := by
  cases op <;> first | exact .inl ⟨rfl, _, rfl⟩ | exact .inr ⟨rfl, _, rfl⟩

theorem runBasic_alu {op : BasicOp} {f : AluOp} (h : basicEffect op = .inl f) (a b : Operand)
    (s : State) : runBasic op a b s = runAlu f a b s := by simp [runBasic, h]

theorem runBasic_test {op : BasicOp} {c : Cond} (h : basicEffect op = .inr c) (a b : Operand)
    (s : State) : runBasic op a b s = runTest c a b s := by simp [runBasic, h]

/-- The ALU leaves O alone in the opcodes that do not write it (R25). -/
theorem alu_keeps_o {op : BasicOp} {f : AluOp} (h : basicEffect op = .inl f) (hw : op.writesO = false)
    (vA vB o : Word) : (f vA vB o).2 = o := by
  cases op <;> cases h <;> first | rfl | (unfold aluMod; split <;> rfl) | cases hw

/-- The ALU's result and O depend on O only where O is passed through (R26). -/
theorem alu_ignores_o {op : BasicOp} {f : AluOp} (h : basicEffect op = .inl f) (vA vB o o' : Word) :
    (f vA vB o).1 = (f vA vB o').1 ∧ (op.writesO = true → (f vA vB o).2 = (f vA vB o').2) := by
  cases op <;> cases h
  all_goals
    first
    | exact ⟨rfl, fun _ => rfl⟩
    | exact ⟨rfl, fun h => nomatch h⟩
    | exact ⟨by unfold aluMod; split <;> rfl, fun h => nomatch h⟩

/-- `exec` always answers a next state. -/
theorem exec_next (i : Instr) (s : State) : ∃ t, exec i s = .next t := by
  obtain ⟨op, a, b, rfl⟩ | ⟨x, rfl⟩ | ⟨e, x, rfl⟩ := i.cases_shape
  · exact ⟨_, exec_instr op a b s⟩
  · exact ⟨_, rfl⟩
  · exact ⟨_, rfl⟩

theorem runBasic_wf (op : BasicOp) (a b : Operand) {s : State} (h : Memory.wf s.mem = true) :
    Memory.wf (runBasic op a b s).mem = true := by
  obtain ⟨-, f, hf⟩ | ⟨-, c, hc⟩ := runBasic_cases op
  · rw [runBasic_alu hf]; exact runAlu_wf f a b h
  · rw [runBasic_test hc, runTest_eq]; simpa using h

@[simp] theorem runBasic_lastPc (op : BasicOp) (a b : Operand) (s : State) :
    (runBasic op a b s).lastPc = s.lastPc := by
  obtain ⟨-, f, hf⟩ | ⟨-, c, hc⟩ := runBasic_cases op
  · simp [runBasic_alu hf]
  · simp [runBasic_test hc, runTest_eq]

@[simp] theorem runBasic_faulted (op : BasicOp) (a b : Operand) (s : State) :
    (runBasic op a b s).faulted = s.faulted := by
  obtain ⟨-, f, hf⟩ | ⟨-, c, hc⟩ := runBasic_cases op
  · simp [runBasic_alu hf]
  · simp [runBasic_test hc, runTest_eq]

/-- Every instruction leaves memory canonical. -/
theorem exec_wf {i : Instr} {s t : State} (h : exec i s = .next t) (hm : Memory.wf s.mem = true) :
    Memory.wf t.mem = true := by
  obtain ⟨op, a, b, rfl⟩ | ⟨x, rfl⟩ | ⟨e, x, rfl⟩ := i.cases_shape
  · rw [exec_instr] at h; cases h; exact runBasic_wf op a b hm
  · cases h; simpa using Memory.write_wf hm _ _
  · cases h; exact hm

/-- No instruction touches last_pc, and only a reserved extended word touches the fault record. -/
theorem exec_keeps_record {i : Instr} {s t : State} (h : exec i s = .next t) :
    t.lastPc = s.lastPc ∧ (i.isReserved = false → t.faulted = s.faulted) := by
  obtain ⟨op, a, b, rfl⟩ | ⟨x, rfl⟩ | ⟨e, x, rfl⟩ := i.cases_shape
  · rw [exec_instr] at h; cases h; simp
  · cases h; simp
  · cases h; exact ⟨rfl, fun h => nomatch h⟩

/-! ### The parts of a step -/

theorem fetchWord_zero (s : State) : s.fetchWord 0 = s.readMem s.pc := by
  simp [State.fetchWord]

/-- The four ways the checks of a step end, in their order (R109, R174). -/
theorem prepare_cases (s : State) :
    (s.isFaulted = true ∧ s.prepare = .done s) ∨
    (s.isFaulted = false ∧ s.isHalted = true ∧ s.prepare = .done s) ∨
    (s.isFaulted = false ∧ s.isHalted = false ∧ s.fetch.1.isReserved = true ∧
      s.prepare = .run s.fetch.1 s.markPc) ∨
    (s.isFaulted = false ∧ s.isHalted = false ∧ s.fetch.1.isReserved = false ∧ s.skipNext = true ∧
      s.prepare = .done ((s.markPc.advance s.fetch.2).setSkip false)) ∨
    (s.isFaulted = false ∧ s.isHalted = false ∧ s.fetch.1.isReserved = false ∧ s.skipNext = false ∧
      s.prepare = .run s.fetch.1 (s.markPc.advance s.fetch.2)) := by
  unfold State.prepare
  cases hf : s.isFaulted
  · cases hh : s.isHalted
    · cases hr : s.fetch.1.isReserved
      · cases hk : s.skipNext
        · exact .inr (.inr (.inr (.inr ⟨rfl, rfl, rfl, rfl, by simp [hr, State.advance, State.markPc, hk]⟩)))
        · exact .inr (.inr (.inr (.inl ⟨rfl, rfl, rfl, rfl, by simp [hr, State.advance, State.markPc, hk]⟩)))
      · exact .inr (.inr (.inl ⟨rfl, rfl, rfl, by simp [hr]⟩))
    · exact .inr (.inl ⟨rfl, rfl, by simp⟩)
  · exact .inl ⟨rfl, by simp⟩

theorem step_of_done {s t : State} (h : s.prepare = .done t) : step s = .next t := by
  simp [step, h]

theorem step_of_run {s t : State} {i : Instr} (h : s.prepare = .run i t) : step s = exec i t := by
  simp [step, h]

theorem isFaulted_iff {s : State} : s.isFaulted = false ↔ s.faulted = none := by
  simp [State.isFaulted]

theorem isHalted_iff {s : State} : s.isHalted = true ↔ s.lastPc = some s.pc := by
  simp [State.isHalted]

/-- The length of what is fetched: 1 to 3 words unless it is a reserved word (R60, R74). -/
theorem fetch_length {s : State} (h : s.fetch.1.isReserved = false) :
    1 ≤ s.fetch.2 ∧ s.fetch.2 ≤ 3 := by
  unfold State.fetch at *
  have ha := trailing_le_one (fieldA (s.fetchWord 0))
  have hb := trailing_le_one (fieldB (s.fetchWord 0))
  obtain ⟨-, -, he⟩ | ⟨-, -, he⟩ | ⟨op, -, -, he⟩ :=
    decodeInstr_cases (s.fetchWord 0) (s.fetchWord 1) (s.fetchWord 2)
  · rw [he] at h; cases h
  · rw [he]; omega
  · rw [he]; omega

/-- An advance by 1 to 3 words moves PC off its address (R102). -/
theorem advance_ne (p : Word) {n : Nat} (h1 : 1 ≤ n) (h3 : n ≤ 3) : p + narrow n ≠ p := by
  intro h
  have := congrArg BitVec.toNat h
  simp only [BitVec.toNat_add, BitVec.toNat_ofNat] at this
  have := p.isLt
  omega

/-- What a reserved fetch is: the two fields of the word at PC, and its fault's info is that word
(R70, R170). -/
theorem fetch_reserved {s : State} (h : s.fetch.1.isReserved = true) :
    s.fetch.1 = .reservedExtended (fieldA (s.readMem s.pc)) (fieldB (s.readMem s.pc)) ∧
      reservedWord (fieldA (s.readMem s.pc)) (fieldB (s.readMem s.pc)) = s.readMem s.pc := by
  unfold State.fetch at *
  obtain ⟨h0, -, he⟩ | ⟨-, -, he⟩ | ⟨op, -, -, he⟩ :=
    decodeInstr_cases (s.fetchWord 0) (s.fetchWord 1) (s.fetchWord 2)
  · rw [he]
    rw [fetchWord_zero] at *
    refine ⟨rfl, ?_⟩
    have := packWord_fields (s.readMem s.pc)
    rwa [h0] at this
  · rw [he] at h; cases h
  · rw [he] at h; simp at h

theorem ready_iff {s : State} : s.Ready ↔ s.isFaulted = false ∧ s.isHalted = false := by
  simp [State.Ready, State.isFaulted, State.isHalted]

/-- A core that is not ready does not change (R110). -/
theorem step_of_not_ready {s : State} (h : ¬ s.Ready) : step s = .next s := by
  rw [ready_iff] at h
  obtain ⟨-, e⟩ | ⟨-, -, e⟩ | ⟨hf, hh, -⟩ | ⟨hf, hh, -⟩ | ⟨hf, hh, -⟩ := prepare_cases s
  · exact step_of_done e
  · exact step_of_done e
  all_goals exact absurd ⟨hf, hh⟩ h

end Sys2Proof.Machine
end

