-- ==== Sys2Proof/Tests/Slice0.lean ====
section
/-! SUPPORT. Tests on fixed values, their expected results from spec/95_test_vectors.md (the vector's id in
each comment) or by hand from the rule named, and a witness for the hypotheses of each statement. -/

namespace Sys2Proof.Tests

open Sys2Proof Sys2Proof.Machine

/-- The state after an outcome, if it is a next state. -/
def after (o : Host.Outcome State Fault Refusal) : Option State :=
  match o with
  | .next t => some t
  | .fault _ => none
  | .refused _ => none

/-- Reset with words loaded from address 0. -/
def boot (ws : List Word) : State := State.reset.setMem (Memory.writeList [] 0 ws)

/-- One step of `OP A, B`, the word `0x0400 | code` (section 3 of the vectors): A and O after it. -/
def aluStep (code a b o : Word) : Option (Word × Word) :=
  (after (step (((boot [0x0400 ||| code]).setReg .a a).setReg .b b |>.setO o))).map
    (fun t => (t.regs.a, t.o))

/-- One step of a conditional on A and B: skip_next after it. -/
def condStep (code a b : Word) : Option Bool :=
  (after (step (((boot [0x0400 ||| code]).setReg .a a).setReg .b b))).map (fun t => t.skipNext)

/-! ### WellFormed refuses -/

theorem test_wf_inline_too_big : (Operand.immInline 32).wf = false := by decide
theorem test_wf_inline_limit : (Operand.immInline 31).wf = true := by decide
theorem test_wf_reserved_is_not_jsr : (Instr.reservedExtended 0x01 0).wf = false := by decide
theorem test_wf_operand_a : (Instr.set (.immInline 40) .sp).wf = false := by decide
theorem test_wf_operand_b : (Instr.ifb .sp (.immInline 40)).wf = false := by decide
theorem test_wf_jsr_operand : (Instr.jsr (.immInline 0xffff)).wf = false := by decide

/-! ### Decoding: words written out from R62 to R66, most significant bit first -/

/-- SET, `bbbbbbaaaaaa0001`: b = 0x1f, a = 0x00 (W1). -/
theorem test_decode_set : decodeInstr 0b0111110000000001 0x30 0 =
    (.set (.reg .a) (.immExtended 0x30), 2) := by decide
/-- ADD, B += inline 3 (W6). -/
theorem test_decode_add : decodeInstr 0b1000110000010010 0 0 = (.add (.reg .b) (.immInline 3), 1) := by decide
theorem test_decode_sub : decodeInstr 0b0000010000100011 0 0 = (.sub (.reg .c) (.reg .b), 1) := by decide
theorem test_decode_mul : decodeInstr 0b0010110010110100 0 0 =
    (.mul (.regIndirect .x) (.regIndirect .x), 1) := by decide
theorem test_decode_div : decodeInstr 0b0110000001000101 0 0 = (.div (.reg .y) .pop, 1) := by decide
theorem test_decode_mod : decodeInstr 0b0110010001010110 0 0 = (.mod (.reg .z) .peek, 1) := by decide
theorem test_decode_shl : decodeInstr 0b0110100001100111 0 0 = (.shl (.reg .i) .push, 1) := by decide
theorem test_decode_shr : decodeInstr 0b0110110001111000 0 0 = (.shr (.reg .j) .sp, 1) := by decide
theorem test_decode_and : decodeInstr 0b0111000110111001 0 0 = (.and .sp .pc, 1) := by decide
theorem test_decode_bor : decodeInstr 0b0111010111001010 0 0 = (.bor .pc .o, 1) := by decide
/-- XOR with two trailing words, A's first (R68). -/
theorem test_decode_xor : decodeInstr 0b0111100101111011 0x11 0x22 =
    (.xor (.regIndirectOffset .j 0x11) (.memDirect 0x22), 3) := by decide
/-- V-ENC-8. -/
theorem test_decode_ife : decodeInstr 0b0100010000001100 0x1000 0 =
    (.ife (.reg .a) (.regIndirectOffset .b 0x1000), 2) := by decide
/-- W9. -/
theorem test_decode_ifn : decodeInstr 0b1100000000001101 0 0 = (.ifn (.reg .a) (.immInline 0x10), 1) := by decide
/-- V-ENC-9. -/
theorem test_decode_ifg : decodeInstr 0b0000001111111110 0 0 = (.ifg (.immInline 0x1f) (.reg .a), 1) := by decide
/-- Operand A literal, operand B needs the only trailing word. -/
theorem test_decode_ifb : decodeInstr 0b0111111000001111 0x77 0 =
    (.ifb (.immInline 0) (.immExtended 0x77), 2) := by decide
/-- `xxxxxx0000010000` (W3). -/
theorem test_decode_jsr : decodeInstr 0b0111110000010000 0x28 0 = (.jsr (.immExtended 0x28), 2) := by decide
/-- V-EXT-4. -/
theorem test_decode_reserved : decodeInstr 0b0000001111110000 0 0 = (.reservedExtended 0x3f 0, 0) := by decide
/-- A trailing word past the end of a stream (D22). -/
theorem test_decode_truncated : decode [0x7de1, 0x1000] = .error (.truncated 0x7de1) := by decide
/-- The table's numbering of bits: the second word is bits 31..16. -/
theorem test_decodeTableWord : decodeTableWord 32 0x00307c01 = some (.set (.reg .a) (.immExtended 0x30)) ∧
    decodeTableWord 16 0x00307c01 = some (.set (.reg .a) (.immExtended 0)) := by decide
/-- W2. -/
theorem test_encode : encode (.set (.memDirect 0x1000) (.immExtended 0x20)) = [0x7de1, 0x1000, 0x0020] := by
  decide

/-! ### One step of each instruction -/

/-- V-SET-1, and V-ENC-14 with V-STK-8: SET SP, POP. -/
theorem test_set : aluStep 1 0x1234 0xbeef 7 = some (0xbeef, 7) ∧
    (after (step ((boot [0x61b1]).setSp 0x10 |>.writeMem 0x10 0x2000))).map (fun t => t.sp) = some 0x2000 := by
  decide
/-- V-ADD-3, V-ADD-4. -/
theorem test_add : aluStep 2 0xffff 0xffff 0 = some (0xfffe, 1) ∧
    aluStep 2 0x8000 0x8000 0x55 = some (0, 1) := by decide
/-- V-SUB-5, V-SUB-4. -/
theorem test_sub : aluStep 3 0 0xffff 0 = some (1, 0xffff) ∧ aluStep 3 7 7 0x1234 = some (0, 0) := by decide
/-- V-MUL-3, V-MUL-5. -/
theorem test_mul : aluStep 4 0xffff 0xffff 0 = some (1, 0xfffe) ∧ aluStep 4 0 0xffff 5 = some (0, 0) := by
  decide
/-- V-DIV-2, V-DIV-5. -/
theorem test_div : aluStep 5 1 3 0 = some (0, 0x5555) ∧ aluStep 5 5 0 0x1234 = some (0, 0) := by decide
/-- V-DIV-3: the O formula is masked. -/
theorem test_div_masked : aluStep 5 0xffff 0xffff 0 = some (1, 0) := by decide
/-- V-MOD-1, V-MOD-2. -/
theorem test_mod : aluStep 6 7 3 0x1234 = some (1, 0x1234) ∧ aluStep 6 5 0 0x1234 = some (0, 0x1234) := by
  decide
/-- V-SHL-5, V-SHL-4. -/
theorem test_shl : aluStep 7 0xffff 0x14 0 = some (0, 0xfff0) ∧ aluStep 7 0xffff 0x10 0 = some (0, 0xffff) := by
  decide
/-- V-SHL-6, V-SHL-7. -/
theorem test_shl_far : aluStep 7 1 0xffff 0 = some (0, 0) ∧ aluStep 7 5 0 0x77 = some (5, 0) := by decide
/-- V-SHR-2, V-SHR-5. -/
theorem test_shr : aluStep 8 1 1 0 = some (0, 0x8000) ∧ aluStep 8 0xffff 0x14 0 = some (0, 0x0fff) := by decide
/-- V-AND-1, V-BOR-1, V-XOR-1. -/
theorem test_bitwise : aluStep 9 0xf0f0 0x0ff0 3 = some (0x00f0, 3) ∧
    aluStep 0xA 0xf000 0x000f 3 = some (0xf00f, 3) ∧ aluStep 0xB 0xffff 0x0f0f 3 = some (0xf0f0, 3) := by
  decide
/-- V-IF-1, V-IF-2. -/
theorem test_ife : condStep 0xC 5 5 = some false ∧ condStep 0xC 5 6 = some true := by decide
/-- V-IF-3, V-IF-4. -/
theorem test_ifn : condStep 0xD 5 5 = some true ∧ condStep 0xD 5 6 = some false := by decide
/-- V-IF-5, V-IF-7. -/
theorem test_ifg : condStep 0xE 0x8000 0x7fff = some false ∧ condStep 0xE 0 0xffff = some true := by decide
/-- V-IF-8, V-IF-9. -/
theorem test_ifb : condStep 0xF 0xf0 0x0f = some true ∧ condStep 0xF 0xf0 0x10 = some false := by decide
/-- V-STK-10: a conditional still moves SP. -/
theorem test_ifn_push : (after (step ((boot [0x81ad]).setSp 0))).map (fun t => (t.sp, t.skipNext)) =
    some (0xffff, true) := by decide
/-- V-JSR-1. -/
theorem test_jsr : (after (step (boot [0x7c10, 0x0028]))).map
    (fun t => (t.readMem 0xffff, t.sp, t.pc)) = some (0x0002, 0xfffe, 0x0028) := by decide
/-- V-JSR-3: the push overwrites the JSR's own word. -/
theorem test_jsr_pop : (after (step ((boot [0x6010]).writeMem 0xffff 0x0400))).map
    (fun t => (t.readMem 0, t.sp, t.pc)) = some (0x0001, 0xffff, 0x0400) := by decide
/-- V-EXT-5. -/
theorem test_reserved : after (step (boot [0xfc00])) = some
    (((boot [0xfc00]).setLastPc (some 0)).setFaulted (some (.unrecognizedExtended, 0xfc00))) := by decide

/-! ### Operands and control -/

/-- V-OPD-1, V-OPD-2: an effective address that wraps. -/
theorem test_offset : (after (step ((boot [0x9501, 0x1000]).setReg .a 2))).map (fun t => t.mem) =
      some [(0, 0x9501), (1, 0x1000), (0x1002, 5)] ∧
    (after (step (((boot [0x4401, 0xfffe]).setReg .b 4).writeMem 2 0xabcd))).map (fun t => t.regs.a) =
      some 0xabcd := by decide
/-- V-OPD-6: a literal target is discarded. -/
theorem test_literal_target : (after (step ((boot [0x01f1, 0x0020]).setReg .a 9))).map
    (fun t => (t.readMem 1, t.pc)) = some (0x0020, 2) := by decide
/-- V-OPD-8: PC reads as already advanced. -/
theorem test_read_pc : (after (step (boot [0x7001]))).map (fun t => (t.regs.a, t.pc)) = some (1, 1) := by decide
/-- V-STK-9: B before A. -/
theorem test_add_sp_pop : (after (step ((boot [0x61b2]).setSp 0x10 |>.writeMem 0x10 5))).map
    (fun t => (t.sp, t.o)) = some (0x16, 0) := by decide
/-- V-STK-5, V-STK-2. -/
theorem test_push : (after (step ((boot [0x6801]).setSp 0x100 |>.writeMem 0xff 0x44))).map
      (fun t => (t.sp, t.regs.a)) = some (0xff, 0x44) ∧
    (after (step (((boot [0x01a1]).setReg .a 0x77).setSp 0))).map (fun t => (t.sp, t.readMem 0xffff)) =
      some (0xffff, 0x77) := by decide
/-- V-ODST-1: the result wins in O. -/
theorem test_add_o : (after (step ((boot [0x7dd2, 0xffff]).setO 1))).map (fun t => (t.o, t.pc)) =
    some (0, 2) := by decide
/-- V-WRAP-1. -/
theorem test_wrap_fetch : (after (step (((boot [0x0030]).writeMem 0xffff 0x7c01).setPc 0xffff))).map
    (fun t => (t.regs.a, t.pc)) = some (0x0030, 0x0001) := by decide
/-- V-JMP-3: `SUB PC, 1` leaves the core halted. -/
theorem test_sub_pc : (after (step (boot [0x85c3]))).map (fun t => (t.pc, t.isHalted)) = some (0, true) := by
  decide
/-- V-SKIP-1, its second step: a three-word instruction is skipped whole. -/
theorem test_skip : (after (step (((boot [0x840c, 0x7de1, 0x1000, 0x0020]).setPc 1).setSkip true))).map
    (fun t => (t.pc, t.skipNext, t.readMem 0x1000)) = some (4, false, 0) := by decide
/-- V-SKIP-5, its second step: the fault comes before the skip. -/
theorem test_skip_fault : (after (step (((boot [0x840c, 0x0000]).setPc 1).setSkip true))).map
    (fun t => (t.pc, t.skipNext, t.faulted)) = some (1, true, some (.unrecognizedExtended, 0)) := by decide
/-- W10: the second visit. -/
theorem test_halt : (match drive 5 (boot [0x7dc1, 0x0000]) with
    | .next (_, e) => some e
    | .fault _ => none
    | .refused _ => none) = some .halted := by decide
/-- P4: running off the end. -/
theorem test_run_off_end : (match drive 5 (boot [0x8401]) with
    | .next (t, e) => some (t.faultCode, t.faultInfo, t.pc, e)
    | .fault _ => none
    | .refused _ => none) = some (some 1, some 0, 1, .faulted) := by decide
/-- The step after withFetchWord runs the word, also in a core that was faulted with a skip pending. -/
theorem test_withFetchWord :
    (after (step (State.reset.withFetchWord 16 0x8401))).map (fun t => t.regs.a) = some 1 ∧
    (after (step ((((boot []).setFaulted (some (.unrecognizedExtended, 0))).setSkip true).setLastPc (some 0)
      |>.withFetchWord 16 0x8401))).map (fun t => t.regs.a) = some 1 := by decide

/-! ### Host and toolchain -/

/-- R42: high byte first. -/
theorem test_image : imageWords [0x7c, 0x01, 0x00, 0x30] = some [0x7c01, 0x0030] := by decide
/-- R191, R193: refusals. -/
theorem test_load_refusals :
    (match State.reset.loadFile [0x7c] with | .refused r => some r | _ => none) = some .oddImageFile ∧
    (match (State.reset.setLastPc (some 0)).load [] with | .refused r => some r | _ => none) =
      some .loadAfterStep := by decide
/-- P5's source, with labels (R76: a label is always long). -/
theorem test_assemble : assembleText
    [["JSR".toList, "sub".toList], [":end".toList, "SET".toList, "PC".toList, "end".toList],
      [":sub".toList, "set".toList, "PC".toList, "POP".toList]] =
    .ok [0x7c10, 0x0004, 0x7dc1, 0x0002, 0x61c1] := by decide
/-- R82: an inline label at counter 0 shifts a later label by one. -/
theorem test_skew : labelTable [.op .jsr, .label ['x'], .operand (.reg .a), .newline, .label ['y'], .newline] =
    [(['y'], 2)] := by decide
/-- Log entry 17: a label definition's name is letters only. -/
theorem test_label_names : parseLine false [":loop1".toList] = .error .unknownOperandToken ∧
    parseLine false [":".toList] = .error .unknownOperandToken ∧
    parseLine false [":loop".toList] = .ok [.label "loop".toList, .newline] := by decide
/-- R84: wrong argument count, unknown mnemonic, undefined label. -/
theorem test_assemble_errors :
    assembleText [["JSR".toList, "A".toList, "B".toList]] = .error .malformedOperandCount ∧
    assembleText [["HWI".toList, "A".toList]] = .error .unknownMnemonic ∧
    assembleText [["JSR".toList, "nowhere".toList]] = .error (.undefinedLabel "nowhere".toList) := by decide
/-- D20, D24: a literal out of range and `[reg+literal]`. -/
theorem test_operand_errors : parseOperand "65536".toList = .error .unknownOperandToken ∧
    parseOperand "[A+0x10]".toList = .error .unknownOperandToken ∧
    parseOperand "[0x10+b]".toList = .ok (.operand (.regIndirectOffset .b 0x10)) := by decide
/-- R87: lower-case hexadecimal without padding. -/
theorem test_render : disassembleText [0x4401, 0xfffe] = .ok [["SET".toList, "A".toList, "[0xfffe+B]".toList]] := by
  decide

/-! ### Witnesses: each statement's hypotheses can be met -/

theorem witness_DecodeOfEncode : (Instr.set (.regIndirectOffset .j 0xffff) (.immInline 31)).wf = true := by decide
theorem witness_EncodeOfDecode : decode [0x7c10, 0x0028, 0x0000] = .ok (.jsr (.immExtended 0x28), [0x0000]) := by
  decide
theorem witness_OperandFieldTable : 0 ≤ 31 ∧ decodeOperand (BitVec.ofNat 6 (0x20 + 0)) 9 = .immInline 0 ∧
    decodeOperand (BitVec.ofNat 6 (0x20 + 31)) 9 = .immInline 31 := by decide
theorem witness_WordClasses : (0xfc01 : Word).toNat % 16 ≠ 0 ∧
    ((0xfc10 : Word).toNat % 16 = 0 ∧ (0xfc10 : Word).toNat / 16 % 64 = 1) ∧
    reservedPattern 0x0000 ∧ reservedPattern 0x0020 ∧ reservedPattern 0xfff0 := by decide
theorem witness_InstructionLength : ¬ reservedPattern 0x79e1 ∧ (decodeInstr 0x79e1 0 0).2 = 3 := by decide

theorem boot_inv (ws : List Word) : (boot ws).Inv :=
  ⟨Memory.writeList_wf ws 0 rfl, fun _ h => (nomatch h), fun _ _ h => (nomatch h)⟩

theorem witness_StepKeepsInvariant : (boot [0x8401]).Inv ∧ ∃ t, step (boot [0x8401]) = .next t :=
  ⟨boot_inv _, _, rfl⟩

/-- A faulted state with a skip pending meets the invariant too. -/
theorem witness_StepKeepsInvariant_faulted :
    (((boot []).setSkip true).setLastPc (some 0)).setFaulted (some (.unrecognizedExtended, 0)) |>.Inv :=
  ⟨rfl, fun h => (nomatch h), by rintro f info ⟨⟩; exact ⟨rfl, rfl, by decide, rfl⟩⟩

theorem witness_StepRunsInstructionAtPc :
    let i := Instr.set (.memDirect 0x1000) (.immExtended 0x20)
    let s := boot [0x7de1, 0x1000, 0x0020]
    i.wf = true ∧ i.isReserved = false ∧ s.Ready ∧ s.skipNext = false ∧
      ∀ (k : Nat) (h : k < (encode i).length), s.readMem (s.pc + narrow k) = (encode i)[k] := by decide

theorem witness_SkippedInstructionOnlyAdvances :
    let i := Instr.jsr (.immExtended 0x40)
    let s := (((boot [0x800d, 0x7c10, 0x0040]).setPc 1).setLastPc (some 0)).setSkip true
    i.wf = true ∧ i.isReserved = false ∧ s.Ready ∧ s.skipNext = true ∧
      ∀ (k : Nat) (h : k < (encode i).length), s.readMem (s.pc + narrow k) = (encode i)[k] := by decide

theorem witness_ReservedWordFaults : (boot [0x03f0]).Ready ∧ reservedPattern ((boot [0x03f0]).readMem 0) ∧
    ((boot [0x03f0]).setSkip true).Ready := by decide
theorem witness_FaultOnlyFromReservedWord : (boot [0xfc00]).faulted = none ∧
    (after (step (boot [0xfc00]))).map (fun t => t.faulted.isSome) = some true := by decide
theorem witness_StoppedCoreNeverChanges :
    ((boot []).setFaulted (some (.unrecognizedExtended, 0))).faulted ≠ none ∧
    ((boot []).setLastPc (some 0)).lastPc = some ((boot []).setLastPc (some 0)).pc := by decide
theorem witness_HaltedExactlyAtOwnAddress :
    ((boot [0x8401]).setSkip true).Ready ∧ ((boot [0x8401]).setSkip true).skipNext = true ∧
    ¬ reservedPattern ((boot [0x8401]).readMem 0) ∧
    (after (step ((boot [0x8401]).setSkip true))).isSome = true ∧
    (after (step (boot [0x7dc1, 0]))).map (fun t => (t.pc, t.isHalted)) = some (0, true) := by decide
theorem witness_StatusOfStep :
    ((boot []).setFaulted (some (.unrecognizedExtended, 0))).faulted ≠ none ∧
    ((boot []).setLastPc (some 0)).faulted = none ∧
    ((boot []).setLastPc (some 0)).lastPc = some ((boot []).setLastPc (some 0)).pc ∧
    (boot []).Ready ∧ reservedPattern ((boot []).readMem 0) ∧ (boot [0x8401]).Ready ∧
    ¬ reservedPattern ((boot [0x8401]).readMem 0) := by decide
theorem witness_DriveEndsAsReported :
    (boot [0x7dc1, 0]).Inv ∧ (∃ t, drive 2 (boot [0x7dc1, 0]) = .next (t, .halted)) ∧
    (boot []).Inv ∧ (∃ t, drive 1 (boot []) = .next (t, .faulted)) :=
  ⟨boot_inv _, ⟨_, rfl⟩, boot_inv _, _, rfl⟩
theorem witness_LocationReadsBack : Memory.wf (boot [1]).mem = true ∧ (Loc.mem 0) ≠ Loc.sp ∧
    (Loc.mem 0) ≠ Loc.mem 1 ∧ (∀ k, Loc.mem 0 ≠ .lit k) ∧ ∃ k, Loc.lit 3 = .lit k :=
  ⟨by decide, by decide, by decide, nofun, 3, rfl⟩
theorem witness_PushPopPairs : Memory.wf ((boot [0x61a1]).writeMem 0xffff 7).mem = true := by decide

/-- `OP A, B` with A and B as given: the inputs of the operand phase. -/
theorem witness_inputs (x y : Word) :
    (gather (.reg .a) (.immExtended y) ((boot []).setReg .a x)).vA = x ∧
    (gather (.reg .a) (.immExtended y) ((boot []).setReg .a x)).vB = y := ⟨rfl, rfl⟩
/-- Both clauses of DivResult and ModResult are met (V-DIV-5, V-DIV-4). -/
theorem witness_DivResult : ∀ y ∈ [(0 : Word), 1],
    (gather (.reg .a) (.immExtended y) ((boot []).setReg .a 5)).vB = y := fun _ _ => rfl
theorem witness_ModResult : ∀ y ∈ [(0 : Word), 0xffff],
    (gather (.reg .a) (.immExtended y) ((boot []).setReg .a 5)).vB = y := fun _ _ => rfl
/-- The boundary of every range of the shifts, with the values of R136's and R137's closed forms. -/
theorem witness_ShlResult : [(0 : Word), 1, 15, 16, 17, 31, 32].map (fun y => aluStep 7 0x8001 y 9) =
    [some (0x8001, 0), some (2, 1), some (0x8000, 0x4000), some (0, 0x8001), some (0, 2), some (0, 0x8000),
      some (0, 0)] := by decide
theorem witness_ShrResult : [(0 : Word), 1, 15, 16, 17, 31, 32].map (fun y => aluStep 8 0x8001 y 9) =
    [some (0x8001, 0), some (0x4000, 0x8000), some (1, 2), some (0, 0x8001), some (0, 0x4000), some (0, 1),
      some (0, 0)] := by decide
theorem witness_OrderAndBitTestsSkip :
    (∃ k : Nat, (0x00f0 : Word).getLsbD k = true ∧ (0x0010 : Word).getLsbD k = true) ∧
    ∀ k : Nat, (0 : Word).getLsbD k = true → (0 : Word).getLsbD k = false :=
  ⟨⟨4, by decide⟩, fun k h => absurd h (by simp)⟩
theorem witness_JsrResult : Memory.wf (boot [0x7c10, 0x0028]).mem = true := by decide
theorem witness_ReturnIdiomReturns : ∃ t : State, exec (.jsr (.immExtended 0x28)) (boot []) = .next t ∧
    ∃ v, exec (.add .sp (.immInline 1)) t = .next v := ⟨_, rfl, _, rfl⟩
theorem witness_SelfJumpHalts : (boot [0x7dc1, 0]).Ready ∧ (boot [0x7dc1, 0]).skipNext = false ∧
    (boot [0x7dc1, 0]).readMem 0 = 0x7dc1 ∧ (boot [0x7dc1, 0]).readMem 1 = (boot [0x7dc1, 0]).pc := by decide
theorem witness_AluFrame : BasicOp.writesA .mod = true ∧ BasicOp.writesO .mod = false ∧
    (∃ t, exec (BasicOp.instr .mod (.memDirect 5) (.reg .b)) (boot []) = .next t) ∧
    Operand.memDirect 5 ≠ .reg .a ∧ (Operand.memDirect 5).movesSp = false ∧ (Operand.reg .b).movesSp = false ∧
    (resolve (.memDirect 5) (resolve (.reg .b) (boot [])).1).2 ≠ .mem 6 :=
  ⟨rfl, rfl, ⟨_, rfl⟩, by decide, rfl, rfl, by decide⟩
theorem witness_ConditionalFrame : BasicOp.writesA .ifg = false ∧
    ∃ t, exec (BasicOp.instr .ifg .peek (.reg .b)) ((boot []).setSkip true) = .next t := ⟨rfl, _, rfl⟩
theorem witness_LiteralTargetFrame : BasicOp.writesA .add = true ∧
    ∃ t, exec (BasicOp.instr .add (.immInline 3) .pop) (boot []) = .next t := ⟨rfl, _, rfl⟩
theorem witness_RegistersChangeOnlyAsDestination :
    (after (step (boot [0x8401]))).map (fun t => decide (t.regs.get .a ≠ (boot [0x8401]).regs.get .a)) =
      some true := by decide
theorem witness_OverflowIsNoHiddenInput : Operand.reg .a ≠ .o ∧ Operand.pop ≠ .o ∧
    (∃ t, exec (BasicOp.instr .sub (.reg .a) .pop) (boot []) = .next t) ∧
    ∃ t, exec (.jsr .pop) (boot []) = .next t := ⟨by decide, by decide, ⟨_, rfl⟩, _, rfl⟩
theorem witness_BookkeepingIsNoHiddenInput : BasicOp.writesA .set = true ∧
    (∃ t, exec (BasicOp.instr .set .push .pc) (boot []) = .next t) ∧ (∃ t, exec (.jsr .pop) (boot []) = .next t) ∧
    ∃ t, exec (.reservedExtended 2 0) (boot []) = .next t := ⟨rfl, ⟨_, rfl⟩, ⟨_, rfl⟩, _, rfl⟩
/-- Both ends of the length's range, and each way a step shows. -/
theorem witness_LoadPlacesImage :
    State.reset.lastPc = none ∧ State.reset.faulted = none ∧ Memory.wf State.reset.mem = true ∧
    ([] : List Word).length ≤ (0 : Word).toNat ∧ (List.replicate 65536 (0x8401 : Word)).length ≤ 65536 ∧
    65535 < (List.replicate 65536 (0x8401 : Word)).length ∧
    65536 < (List.replicate 65537 (0 : Word)).length ∧
    (State.reset.setLastPc (some 0)).lastPc ≠ none ∧
    (State.reset.setFaulted (some (.unrecognizedExtended, 0))).faulted ≠ none :=
  ⟨rfl, rfl, rfl, by decide, by rw [List.length_replicate], by rw [List.length_replicate]; decide,
    by rw [List.length_replicate]; decide, by decide, by decide⟩
/-- One word too many is refused (R191). -/
theorem witness_LoadPlacesImage_refusals :
    (match State.reset.load (List.replicate 65537 0) with | .refused r => some r | _ => none) =
      some .imageTooLong := by
  simp only [State.load, List.length_replicate]
  rfl
theorem witness_NoLoadAfterStep : ∃ t, step (boot [0x8401]) = .next t := ⟨_, rfl⟩
theorem witness_ImageBytesAreBigEndian : [(0x7c : Byte)].length % 2 = 1 ∧
    [(0x7c : Byte), 0x01].length % 2 = 0 := by decide
theorem witness_TokenRoundTrip : ∀ i ∈ [Instr.set (.reg .a) (.immExtended 3), Instr.jsr .pop],
    i.wf = true ∧ i.isReserved = false := by decide
theorem witness_ReservedWordDisassemblesAsData : reservedPattern 0x0020 ∧
    disassemble [0x8401] = .ok [.op (.basic .set), .operand (.reg .a), .operand (.immInline 1), .newline] := by
  decide
theorem witness_OperandTextReadsBack : (Operand.immExtended 32).wf = true ∧
    (∀ k : Word, Operand.immExtended 32 = .immExtended k → 31 < k.toNat) :=
  ⟨rfl, by rintro k ⟨⟩; decide⟩
theorem witness_LabelReferenceIsLongForm :
    List.lookup ['e'] [(['e'], 65535)] = some 65535 ∧ List.lookup ['e'] [(['e'], 0)] = some 0 ∧
    List.lookup ['f'] [(['e'], 65535)] = none ∧ List.lookup ['e'] [(['e'], 65536)] = some 65536 ∧
    (Operand.regIndirectOffset .j 0xffff).wf = true := by decide

end Sys2Proof.Tests
end

/-! PROOFS. The family of spec/10_state.md: the reset state, what an ALU instruction leaves unchanged, and
the members of State that no instruction reads implicitly. -/

namespace Sys2Proof.Machine

/-! ### Reset (R34) -/

/-- Settles O7: every member of the reset state is a literal, and memory lists no cell. -/
theorem resetStateForm : Obligations.ResetStateForm :=
  ⟨fun r => by cases r <;> rfl, rfl, rfl, rfl, Memory.read_nil, rfl, rfl, rfl⟩

/-- Settles O8: memory lists no cell, and neither a skip nor a fault is recorded. -/
theorem resetMeetsInvariant : Obligations.ResetMeetsInvariant where
  memory := rfl
  skipPending _ hskip := nomatch hskip
  faultRecord _ _ hfault := nomatch hfault

/-! ### What an ALU instruction leaves unchanged (R106, R107, R113) -/

section
variable (f : AluOp) {a : Operand} (b : Operand) (s : State)

theorem runAlu_get_of_ne {r : Reg} (ha : a ≠ .reg r) :
    (runAlu f a b s).regs.get r = s.regs.get r := by
  rw [runAlu_eq, writeLoc_get (mt gather_loc_reg ha), State.setO_regs, gather_state_regs]

theorem runAlu_sp_of_ne (ha : a ≠ .sp) : (runAlu f a b s).sp = (gather a b s).state.sp := by
  rw [runAlu_eq, writeLoc_sp (mt gather_loc_sp ha), State.setO_sp]

theorem runAlu_pc_of_ne (ha : a ≠ .pc) : (runAlu f a b s).pc = s.pc := by
  rw [runAlu_eq, writeLoc_pc (mt gather_loc_pc ha), State.setO_pc, gather_state_pc]

theorem runAlu_o_of_ne (ha : a ≠ .o) :
    (runAlu f a b s).o = (f (gather a b s).vA (gather a b s).vB s.o).2 := by
  rw [runAlu_eq, writeLoc_o (mt gather_loc_o ha), State.setO_o]

theorem runAlu_readMem_of_ne {addr : Word} (ha : (gather a b s).loc ≠ .mem addr) :
    (runAlu f a b s).readMem addr = s.readMem addr := by
  rw [runAlu_eq, writeLoc_readMem ha, State.setO_readMem, gather_state_readMem]

end

theorem basicEffect_of_writesA {op : BasicOp} (h : op.writesA = true) :
    ∃ f, basicEffect op = .inl f := by
  obtain ⟨-, hf⟩ | ⟨htest, -⟩ := runBasic_cases op
  · exact hf
  · rw [h] at htest
    cases htest

/-- Settles O39: the operand phase moves SP at most, O is written by the opcodes of R25 only, and the
result goes to A's location. -/
theorem aluFrame : Obligations.AluFrame := by
  intro op a b s t hop ht
  obtain ⟨f, hf⟩ := basicEffect_of_writesA hop
  rw [exec_instr, runBasic_alu hf] at ht
  cases ht
  refine ⟨fun r => runAlu_get_of_ne f b s, fun ha hma hmb => ?_, runAlu_pc_of_ne f b s,
    fun ha hwo => ?_, runAlu_skipNext f a b s, runAlu_lastPc f a b s, runAlu_faulted f a b s,
    fun addr => runAlu_readMem_of_ne f b s⟩
  · rw [runAlu_sp_of_ne f b s ha, gather_state_sp hma hmb]
  · rw [runAlu_o_of_ne f b s ha, alu_keeps_o hf hwo]

/-! ### General registers (R21) -/

theorem runTest_regs (c : Cond) (a b : Operand) (s : State) : (runTest c a b s).regs = s.regs := by
  rw [runTest_eq, State.setSkip_regs, gather_state_regs]

/-- An instruction that changes a register is a basic one that writes A and names it as operand A. -/
theorem exec_changes_reg {i : Instr} {s t : State} {r : Reg} (ht : exec i s = .next t)
    (hr : t.regs.get r ≠ s.regs.get r) :
    ∃ op b, BasicOp.writesA op = true ∧ i = op.instr (.reg r) b := by
  obtain ⟨op, a, b, rfl⟩ | ⟨x, rfl⟩ | ⟨e, x, rfl⟩ := i.cases_shape
  · rw [exec_instr] at ht
    cases ht
    obtain ⟨hop, f, hf⟩ | ⟨-, c, hc⟩ := runBasic_cases op
    · rw [runBasic_alu hf] at hr
      obtain rfl : a = .reg r := by_contra fun ha => hr (runAlu_get_of_ne f b s ha)
      exact ⟨op, b, hop, rfl⟩
    · rw [runBasic_test hc, runTest_regs] at hr
      exact absurd rfl hr
  · cases ht
    simp at hr
  · cases ht
    simp at hr

/-- Settles O44: of the five ways a step ends, only the execution of an unskipped instruction can change
a register. -/
theorem registersChangeOnlyAsDestination : Obligations.RegistersChangeOnlyAsDestination := by
  intro s t r ht hr
  have hdone {u : State} (hp : s.prepare = .done u) : u.regs ≠ s.regs := by
    rw [step_of_done hp] at ht
    cases ht
    exact fun hregs => hr (by rw [hregs])
  have hrun {i : Instr} {u : State} (hp : s.prepare = .run i u) (hregs : u.regs = s.regs) :
      ∃ op b, BasicOp.writesA op = true ∧ i = op.instr (.reg r) b := by
    rw [step_of_run hp] at ht
    exact exec_changes_reg ht (by rwa [hregs])
  obtain ⟨-, hp⟩ | ⟨-, -, hp⟩ | ⟨-, -, hres, hp⟩ | ⟨-, -, -, -, hp⟩ | ⟨-, -, -, hskip, hp⟩ :=
    prepare_cases s
  · exact (hdone hp rfl).elim
  · exact (hdone hp rfl).elim
  · obtain ⟨op, b, -, hi⟩ := hrun hp rfl
    rw [hi, BasicOp.isReserved_instr] at hres
    cases hres
  · exact (hdone hp rfl).elim
  · exact ⟨hskip, hrun hp rfl⟩

/-! ### Changes of the state that an operand does not see (R26 to R28) -/

/-- Operand `x` resolves to the same location and reads the same value after the change `u` of the state,
and `u` is carried through. -/
def Unseen (u : State → State) (x : Operand) : Prop :=
  ∀ s, resolve x (u s) = (u (resolve x s).1, (resolve x s).2) ∧
    readLoc (resolve x s).2 (u (resolve x s).1) = readLoc (resolve x s).2 (resolve x s).1

theorem unseen_setO {x : Operand} (hx : x ≠ .o) (v : Word) : Unseen (·.setO v) x := by
  intro s
  cases x with
  | o => exact absurd rfl hx
  | _ => exact ⟨rfl, rfl⟩

theorem unseen_setLastPc (x : Operand) (p : Option Word) : Unseen (·.setLastPc p) x := by
  intro s
  cases x <;> exact ⟨rfl, rfl⟩

theorem unseen_setSkip (x : Operand) (k : Bool) : Unseen (·.setSkip k) x := by
  intro s
  cases x <;> exact ⟨rfl, rfl⟩

section
variable {u : State → State} {a b x : Operand}

theorem getValue_unseen (hx : Unseen u x) (s : State) :
    getValue x (u s) = (u (getValue x s).1, (getValue x s).2) := by
  obtain ⟨hres, hread⟩ := hx s
  simp only [getValue, hres, hread]

theorem gather_unseen (ha : Unseen u a) (hb : Unseen u b) (s : State) :
    gather a b (u s) = { gather a b s with state := u (gather a b s).state } := by
  obtain ⟨hres, hread⟩ := ha (getValue b s).1
  simp only [gather, getValue_unseen hb, hres, hread]

/-- An ALU instruction carries through a change that its operands do not see, that leaves O alone and
that its writes leave alone. -/
theorem runAlu_unseen (f : AluOp) (ha : Unseen u a) (hb : Unseen u b) (ho : ∀ s, (u s).o = s.o)
    (hw : ∀ l v w s, writeLoc l v ((u s).setO w) = u (writeLoc l v (s.setO w))) (s : State) :
    runAlu f a b (u s) = u (runAlu f a b s) := by
  rw [runAlu_eq, runAlu_eq, gather_unseen ha hb, ho, hw]

end

/-! ### O is read by an O operand alone (R26) -/

theorem writeLoc_setO {l : Loc} (hl : l ≠ .o) (v w : Word) (s : State) :
    writeLoc l v (s.setO w) = (writeLoc l v s).setO w := by
  cases l with
  | o => exact absurd rfl hl
  | _ => rfl

theorem runAlu_setO {op : BasicOp} {f : AluOp} (hf : basicEffect op = .inl f) {a b : Operand}
    (ha : a ≠ .o) (hb : b ≠ .o) (v : Word) (s : State) :
    runAlu f a b (s.setO v) =
      if op.writesO then runAlu f a b s else (runAlu f a b s).setO v := by
  rw [runAlu_eq, runAlu_eq, gather_unseen (unseen_setO ha v) (unseen_setO hb v), State.setO_o]
  obtain ⟨hresult, ho⟩ := alu_ignores_o hf (gather a b s).vA (gather a b s).vB v s.o
  have hloc : (gather a b s).loc ≠ .o := mt gather_loc_o ha
  cases hwo : op.writesO with
  | true =>
    rw [hresult, ho hwo]
    rfl
  | false =>
    rw [hresult, alu_keeps_o hf hwo, alu_keeps_o hf hwo, writeLoc_setO hloc, writeLoc_setO hloc,
      writeLoc_setO hloc]
    rfl

theorem runTest_setO (c : Cond) {a b : Operand} (ha : a ≠ .o) (hb : b ≠ .o) (v : Word) (s : State) :
    runTest c a b (s.setO v) = (runTest c a b s).setO v := by
  rw [runTest_eq, runTest_eq, gather_unseen (unseen_setO ha v) (unseen_setO hb v)]
  rfl

/-- Only opcodes that write A write O as a side effect (R115). -/
theorem writesO_eq_false_of_writesA {op : BasicOp} (h : op.writesA = false) : op.writesO = false := by
  revert h
  cases op <;> decide

/-- Settles O45: operands other than O do not see O, and the ALU passes it through or overwrites it. -/
theorem overflowIsNoHiddenInput : Obligations.OverflowIsNoHiddenInput := by
  refine ⟨fun op a b s t v ha hb ht => ?_, fun x s t v hx ht => ?_⟩
  · rw [exec_instr] at ht ⊢
    cases ht
    obtain ⟨-, f, hf⟩ | ⟨htest, c, hc⟩ := runBasic_cases op
    · rw [runBasic_alu hf, runBasic_alu hf, runAlu_setO hf ha hb]
    · rw [runBasic_test hc, runBasic_test hc, runTest_setO c ha hb, writesO_eq_false_of_writesA htest]
      rfl
  · cases ht
    rw [exec_jsr, getValue_unseen (unseen_setO hx v)]
    rfl

/-! ### No operand reaches last_pc or skip_next (R27, R28) -/

theorem runAlu_setLastPc (f : AluOp) (a b : Operand) (p : Option Word) (s : State) :
    runAlu f a b (s.setLastPc p) = (runAlu f a b s).setLastPc p :=
  runAlu_unseen f (unseen_setLastPc a p) (unseen_setLastPc b p) (fun _ => rfl)
    (fun l _ _ _ => by cases l <;> rfl) s

theorem runAlu_setSkip (f : AluOp) (a b : Operand) (k : Bool) (s : State) :
    runAlu f a b (s.setSkip k) = (runAlu f a b s).setSkip k :=
  runAlu_unseen f (unseen_setSkip a k) (unseen_setSkip b k) (fun _ => rfl)
    (fun l _ _ _ => by cases l <;> rfl) s

theorem runTest_setLastPc (c : Cond) (a b : Operand) (p : Option Word) (s : State) :
    runTest c a b (s.setLastPc p) = (runTest c a b s).setLastPc p := by
  rw [runTest_eq, runTest_eq, gather_unseen (unseen_setLastPc a p) (unseen_setLastPc b p)]
  rfl

theorem runBasic_setLastPc (op : BasicOp) (a b : Operand) (p : Option Word) (s : State) :
    runBasic op a b (s.setLastPc p) = (runBasic op a b s).setLastPc p := by
  obtain ⟨-, f, hf⟩ | ⟨-, c, hc⟩ := runBasic_cases op
  · rw [runBasic_alu hf, runBasic_alu hf, runAlu_setLastPc]
  · rw [runBasic_test hc, runBasic_test hc, runTest_setLastPc]

theorem exec_setLastPc {i : Instr} {s t : State} (p : Option Word) (ht : exec i s = .next t) :
    exec i (s.setLastPc p) = .next (t.setLastPc p) := by
  obtain ⟨op, a, b, rfl⟩ | ⟨x, rfl⟩ | ⟨e, x, rfl⟩ := i.cases_shape
  · rw [exec_instr] at ht ⊢
    cases ht
    rw [runBasic_setLastPc]
  · cases ht
    rw [exec_jsr, getValue_unseen (unseen_setLastPc x p)]
    rfl
  · cases ht
    rfl

/-- Settles O46: no operand sees either member, and only a conditional writes one of them. -/
theorem bookkeepingIsNoHiddenInput : Obligations.BookkeepingIsNoHiddenInput := by
  refine ⟨fun i s t p => exec_setLastPc p, fun op a b s t k hop ht => ?_, fun x s t k ht => ?_,
    fun e x s t k ht => ?_⟩
  · obtain ⟨f, hf⟩ := basicEffect_of_writesA hop
    rw [exec_instr, runBasic_alu hf] at ht ⊢
    cases ht
    rw [runAlu_setSkip]
  · cases ht
    rw [exec_jsr, getValue_unseen (unseen_setSkip x k)]
    rfl
  · cases ht
    rfl

end Sys2Proof.Machine

/-! PROOFS. The family of spec/20_memory.md: the words of a program image's bytes. -/

namespace Sys2Proof.Machine

/-! ### Image bytes (R42, R191) -/

/-- A pair of bytes fits a word, so the narrowing of `wordOfBytes` loses nothing. -/
@[simp] theorem wordOfBytes_toNat (high low : Byte) :
    (wordOfBytes high low).toNat = high.toNat * 256 + low.toNat := by
  rw [wordOfBytes, BitVec.toNat_ofNat, Nat.mod_eq_of_lt (by omega)]

theorem imageWords_of_odd {bytes : List Byte} (hodd : bytes.length % 2 = 1) :
    imageWords bytes = none := by
  induction bytes using imageWords.induct with
  | case1 => cases hodd
  | case2 => rfl
  | case3 high low rest ih =>
    have hrest : rest.length % 2 = 1 := by simpa [Nat.add_assoc] using hodd
    rw [imageWords, ih hrest, Option.map_none]

/-- Word `k` is made of the bytes at `2 * k` and `2 * k + 1`. -/
theorem imageWords_of_even {bytes : List Byte} (heven : bytes.length % 2 = 0) :
    ∃ ws, imageWords bytes = some ws ∧ 2 * ws.length = bytes.length ∧
      ∀ (k : Nat) (h : k < ws.length), ws[k] =
        wordOfBytes (bytes.getD (2 * k) 0) (bytes.getD (2 * k + 1) 0) := by
  induction bytes using imageWords.induct with
  | case1 => exact ⟨[], rfl, rfl, nofun⟩
  | case2 => cases heven
  | case3 high low rest ih =>
    have hrest : rest.length % 2 = 0 := by simpa [Nat.add_assoc] using heven
    obtain ⟨ws, hws, hlen, hget⟩ := ih hrest
    refine ⟨wordOfBytes high low :: ws, by rw [imageWords, hws, Option.map_some],
      by simp only [List.length_cons]; omega, fun k hk => ?_⟩
    cases k with
    | zero => rfl
    | succ k => exact hget k (Nat.lt_of_succ_lt_succ hk)

/-- Settles O48: the bytes are taken two at a time, high byte first, and a byte left over refuses the
file. -/
theorem imageBytesAreBigEndian : Obligations.ImageBytesAreBigEndian := by
  refine fun bytes => ⟨fun hodd s => ?_, fun heven => ?_⟩
  · rw [State.loadFile, imageWords_of_odd hodd]
  · obtain ⟨ws, hws, hlen, hget⟩ := imageWords_of_even heven
    exact ⟨ws, hws, hlen, fun k hk => by rw [hget k hk, wordOfBytes_toNat]⟩

end Sys2Proof.Machine

/-! PROOFS. The family of spec/30_encoding.md: the codec's two directions and its tables, the walk of the
disassembler and the encoding pass of the assembler, and the text of operands. -/

namespace Sys2Proof

/-! ### The words after an opcode word (R68, R74) -/

theorem trailing_eq_zero_or_one (f : BitVec 6) : trailing f = 0 ∨ trailing f = 1 := by
  have := trailing_le_one f
  omega

/-- A field takes the next word or none, so the word two on is the next one once it has taken its own. -/
theorem nextWord_after_field (f : BitVec 6) (ws : List Word) :
    (if trailing f = 0 then ws.getD 0 0 else ws.getD 1 0) = (ws.drop (trailing f)).getD 0 0 := by
  obtain hf | hf := trailing_eq_zero_or_one f
  · rw [hf]
    rfl
  · simp [hf]

/-- A field's own trailing words in front of a stream are what it takes off it. -/
theorem fieldWords_append_drop {f : BitVec 6} {ws : List Word} (h : trailing f ≤ ws.length) :
    (if trailing f = 0 then [] else [ws.getD 0 0]) ++ ws.drop (trailing f) = ws := by
  obtain hf | hf := trailing_eq_zero_or_one f
  · simp [hf]
  · cases ws with
    | nil => simp [hf] at h
    | cons w ws => simp [hf]

/-! ### The operands of a stream (R75) -/

section
variable {x : Operand} (h : x.wf = true)
include h

theorem drop_trailing_encodeOperand (ws : List Word) :
    ((encodeOperand x).2 ++ ws).drop (trailing (encodeOperand x).1) = ws := by
  rw [trailing_encodeOperand h, List.drop_left]

/-- An operand is decoded from its own words at the front of a stream. -/
theorem decodeOperand_of_stream (ws : List Word) :
    decodeOperand (encodeOperand x).1 (((encodeOperand x).2 ++ ws).getD 0 0) = x := by
  have hget : ((encodeOperand x).2 ++ ws).getD 0 0 = (encodeOperand x).2.getD 0 (ws.getD 0 0) := by
    cases (encodeOperand x).2 <;> rfl
  rw [hget, decodeOperand_encodeOperand h]

end

/-! ### The decoder and the encoder on each class of words (R61, R70) -/

section
variable (a b : BitVec 6) (t1 t2 : Word)

theorem decodeInstr_packWord_basic (op : BasicOp) :
    decodeInstr (packWord op.code a b) t1 t2 =
      (op.instr (decodeOperand a t1) (decodeOperand b (if trailing a = 0 then t1 else t2)),
        1 + trailing a + trailing b) := by
  simp only [decodeInstr, opcodeField_packWord, fieldA_packWord, fieldB_packWord, BasicOp.ofCode_code]

theorem decodeInstr_packWord_jsr :
    decodeInstr (packWord 0 jsrCode b) t1 t2 = (.jsr (decodeOperand b t1), 1 + trailing b) := by
  simp only [decodeInstr, opcodeField_packWord, fieldA_packWord, fieldB_packWord, BasicOp.ofCode_zero,
    if_true]

end

section
variable {w : Word}

theorem trailingCount_of_basic (h : opcodeField w ≠ 0) :
    trailingCount w = trailing (fieldA w) + trailing (fieldB w) := if_neg h

theorem trailingCount_of_jsr (h0 : opcodeField w = 0) (hj : fieldA w = jsrCode) :
    trailingCount w = trailing (fieldB w) := by
  rw [trailingCount, if_pos h0, if_pos hj]

theorem trailingCount_of_reservedPattern (h : reservedPattern w) : trailingCount w = 0 := by
  obtain ⟨h0, hj⟩ := (reservedPattern_iff w).1 h
  rw [trailingCount, if_pos h0, if_neg hj]

theorem decodeInstr_of_reservedPattern (h : reservedPattern w) (t1 t2 : Word) :
    decodeInstr w t1 t2 = (.reservedExtended (fieldA w) (fieldB w), 0) := by
  obtain ⟨h0, hj⟩ := (reservedPattern_iff w).1 h
  rw [decodeInstr, h0, BasicOp.ofCode_zero]
  exact if_neg hj

end

theorem trailingCount_packWord_basic (op : BasicOp) (a b : BitVec 6) :
    trailingCount (packWord op.code a b) = trailing a + trailing b := by
  rw [trailingCount_of_basic (by rw [opcodeField_packWord]; exact op.code_ne_zero), fieldA_packWord,
    fieldB_packWord]

theorem trailingCount_packWord_jsr (b : BitVec 6) :
    trailingCount (packWord 0 jsrCode b) = trailing b := by
  rw [trailingCount_of_jsr (opcodeField_packWord ..) (fieldA_packWord ..), fieldB_packWord]

theorem encode_instr (op : BasicOp) (a b : Operand) :
    encode (op.instr a b) = packWord op.code (encodeOperand a).1 (encodeOperand b).1 ::
      ((encodeOperand a).2 ++ (encodeOperand b).2) := by
  rw [encode, BasicOp.shape_instr]

theorem encode_jsr (x : Operand) :
    encode (.jsr x) = packWord 0 jsrCode (encodeOperand x).1 :: (encodeOperand x).2 := rfl

theorem encode_reservedExtended (e x : BitVec 6) :
    encode (.reservedExtended e x) = [reservedWord e x] := rfl

@[simp] theorem fieldA_reservedWord (e x : BitVec 6) : fieldA (reservedWord e x) = e :=
  fieldA_packWord ..

@[simp] theorem fieldB_reservedWord (e x : BitVec 6) : fieldB (reservedWord e x) = x :=
  fieldB_packWord ..

theorem reservedPattern_reservedWord {e : BitVec 6} (he : e ≠ jsrCode) (x : BitVec 6) :
    reservedPattern (reservedWord e x) :=
  (reservedPattern_iff _).2 ⟨opcodeField_packWord .., by rwa [fieldA_reservedWord]⟩

/-- A reserved word is what its two upper fields pack to. -/
theorem reservedWord_fields {w : Word} (h : reservedPattern w) :
    reservedWord (fieldA w) (fieldB w) = w := by
  rw [reservedWord, ← ((reservedPattern_iff w).1 h).1, packWord_fields]

/-- A stream that decodes: the opcode word, at least its trailing words, and the stream after them. -/
theorem decode_eq_ok_iff {ws rest : List Word} {i : Instr} :
    decode ws = .ok (i, rest) ↔ ∃ w ts, ws = w :: ts ∧ trailingCount w ≤ ts.length ∧
      i = (decodeInstr w (ts.getD 0 0) (ts.getD 1 0)).1 ∧ rest = ts.drop (trailingCount w) := by
  cases ws with
  | nil => simp [decode]
  | cons w ts =>
    rw [decode]
    split
    · next h =>
      simp only [reduceCtorEq, List.cons.injEq, false_iff]
      rintro ⟨_, _, ⟨rfl, rfl⟩, hle, -⟩
      omega
    · next h =>
      simp only [Except.ok.injEq, Prod.mk.injEq, List.cons.injEq]
      constructor
      · rintro ⟨rfl, rfl⟩
        exact ⟨w, ts, ⟨rfl, rfl⟩, by omega, rfl, rfl⟩
      · rintro ⟨_, _, ⟨rfl, rfl⟩, -, rfl, rfl⟩
        exact ⟨rfl, rfl⟩

/-! ### Encode, then decode (R75) -/

theorem decode_encode_instr (op : BasicOp) {a b : Operand} (ha : a.wf = true) (hb : b.wf = true)
    (rest : List Word) : decode (encode (op.instr a b) ++ rest) = .ok (op.instr a b, rest) := by
  refine decode_eq_ok_iff.2 ⟨_, _, by rw [encode_instr, List.cons_append, List.append_assoc], ?_, ?_, ?_⟩
  · simp only [trailingCount_packWord_basic, trailing_encodeOperand ha, trailing_encodeOperand hb,
      List.length_append]
    omega
  · simp only [decodeInstr_packWord_basic, nextWord_after_field, drop_trailing_encodeOperand ha,
      decodeOperand_of_stream ha, decodeOperand_of_stream hb]
  · rw [trailingCount_packWord_basic, ← List.drop_drop, drop_trailing_encodeOperand ha,
      drop_trailing_encodeOperand hb]

theorem decode_encode_jsr {x : Operand} (hx : x.wf = true) (rest : List Word) :
    decode (encode (.jsr x) ++ rest) = .ok (.jsr x, rest) := by
  refine decode_eq_ok_iff.2 ⟨_, _, by rw [encode_jsr, List.cons_append], ?_, ?_, ?_⟩
  · simp only [trailingCount_packWord_jsr, trailing_encodeOperand hx, List.length_append]
    omega
  · rw [decodeInstr_packWord_jsr, decodeOperand_of_stream hx]
  · rw [trailingCount_packWord_jsr, drop_trailing_encodeOperand hx]

/-- A reserved word in front of a stream is taken alone (R72, R86). -/
theorem decode_of_reservedPattern {w : Word} (h : reservedPattern w) (rest : List Word) :
    decode (w :: rest) = .ok (.reservedExtended (fieldA w) (fieldB w), rest) := by
  refine decode_eq_ok_iff.2 ⟨w, rest, rfl, ?_, ?_, ?_⟩
  · rw [trailingCount_of_reservedPattern h]
    exact Nat.zero_le _
  · rw [decodeInstr_of_reservedPattern h]
  · rw [trailingCount_of_reservedPattern h, List.drop_zero]

/-- Settles O1: the opcode word's three fields come back from packing, and each operand is decoded from
its own words at the front of what follows. -/
theorem decodeOfEncode : Obligations.DecodeOfEncode := by
  intro i rest hi
  obtain ⟨op, a, b, rfl⟩ | ⟨x, rfl⟩ | ⟨e, x, rfl⟩ := i.cases_shape
  · obtain ⟨ha, hb⟩ : a.wf = true ∧ b.wf = true := by simpa using hi
    exact decode_encode_instr op ha hb rest
  · exact decode_encode_jsr hi rest
  · have hpat := reservedPattern_reservedWord (of_decide_eq_true hi : e ≠ jsrCode) x
    rw [encode_reservedExtended, List.singleton_append, decode_of_reservedPattern hpat,
      fieldA_reservedWord, fieldB_reservedWord]

/-! ### Decode, then encode (R75) -/

theorem wf_decodeInstr (w t1 t2 : Word) : (decodeInstr w t1 t2).1.wf = true := by
  obtain ⟨-, hj, he⟩ | ⟨-, -, he⟩ | ⟨op, -, -, he⟩ := decodeInstr_cases w t1 t2 <;> rw [he]
  · exact decide_eq_true hj
  · exact (encodeOperand_decodeOperand _ _).2
  · rw [BasicOp.wf_instr, (encodeOperand_decodeOperand _ _).2, (encodeOperand_decodeOperand _ _).2]
    rfl

/-- The words of an instruction that was decoded, in front of the words left, are the stream. -/
theorem encode_decodeInstr (w : Word) {ts : List Word} (hlen : trailingCount w ≤ ts.length) :
    encode (decodeInstr w (ts.getD 0 0) (ts.getD 1 0)).1 ++ ts.drop (trailingCount w) = w :: ts := by
  obtain ⟨h0, hj, he⟩ | ⟨h0, hj, he⟩ | ⟨op, -, hop, he⟩ :=
    decodeInstr_cases w (ts.getD 0 0) (ts.getD 1 0)
  · have hpat := (reservedPattern_iff w).2 ⟨h0, hj⟩
    rw [he, trailingCount_of_reservedPattern hpat, encode_reservedExtended, reservedWord_fields hpat,
      List.drop_zero, List.singleton_append]
  · rw [trailingCount_of_jsr h0 hj] at hlen ⊢
    rw [he, encode_jsr, (encodeOperand_decodeOperand _ _).1, ← h0, ← hj, packWord_fields, List.cons_append,
      fieldWords_append_drop hlen]
  · rw [trailingCount_of_basic (hop ▸ op.code_ne_zero)] at hlen ⊢
    rw [he, encode_instr, nextWord_after_field, (encodeOperand_decodeOperand _ _).1,
      (encodeOperand_decodeOperand _ _).1, hop, packWord_fields, ← List.drop_drop, List.cons_append,
      List.append_assoc, fieldWords_append_drop (by rw [List.length_drop]; omega),
      fieldWords_append_drop (by omega)]

/-- Settles O2: a field's operand encodes to the field and to the trailing word it took. -/
theorem encodeOfDecode : Obligations.EncodeOfDecode := by
  intro ws rest i h
  obtain ⟨w, ts, rfl, hlen, rfl, rfl⟩ := decode_eq_ok_iff.1 h
  exact ⟨wf_decodeInstr .., encode_decodeInstr w hlen⟩

/-! ### The classes of words and their lengths (R60, R61, R72 to R74) -/

theorem isReserved_decodeInstr_iff (w t1 t2 : Word) :
    (decodeInstr w t1 t2).1.isReserved = true ↔ reservedPattern w := by
  rw [reservedPattern_iff]
  obtain ⟨h0, hj, he⟩ | ⟨-, hj, he⟩ | ⟨op, -, hop, he⟩ := decodeInstr_cases w t1 t2 <;> rw [he]
  · exact iff_of_true rfl ⟨h0, hj⟩
  · exact iff_of_false nofun fun h => h.2 hj
  · exact iff_of_false (by simp) fun h => op.code_ne_zero (hop.trans h.1)

/-- Settles O4: the three ways the decoder answers, by the word's low four bits and the next six. -/
theorem wordClasses : Obligations.WordClasses := by
  refine fun w t1 t2 => ⟨fun hbasic => ?_, fun hext hjsr => ?_, isReserved_decodeInstr_iff w t1 t2⟩
  · rw [← opcodeField_toNat] at hbasic ⊢
    obtain ⟨h0, -, -⟩ | ⟨h0, -, -⟩ | ⟨op, -, hop, he⟩ := decodeInstr_cases w t1 t2
    · exact absurd (by rw [h0]; rfl) hbasic
    · exact absurd (by rw [h0]; rfl) hbasic
    · exact ⟨op, _, _, by rw [hop, BitVec.ofNat_toNat, BitVec.setWidth_eq], by rw [he]⟩
  · obtain ⟨h0, hj, he⟩ | ⟨-, -, he⟩ | ⟨op, -, hop, -⟩ := decodeInstr_cases w t1 t2
    · exact absurd hjsr ((reservedPattern_iff w).2 ⟨h0, hj⟩).2
    · exact ⟨_, by rw [he]⟩
    · have hzero : opcodeField w = 0 := BitVec.eq_of_toNat_eq ((opcodeField_toNat w).trans hext)
      exact absurd (hop.trans hzero) op.code_ne_zero

theorem trailingCount_le_two (w : Word) : trailingCount w ≤ 2 := by
  have ha := trailing_le_one (fieldA w)
  have hb := trailing_le_one (fieldB w)
  unfold trailingCount
  split_ifs <;> omega

theorem decodeInstr_snd (w t1 t2 : Word) :
    (decodeInstr w t1 t2).2 = if reservedPattern w then 0 else 1 + trailingCount w := by
  obtain ⟨h0, hj, he⟩ | ⟨h0, hj, he⟩ | ⟨op, -, hop, he⟩ := decodeInstr_cases w t1 t2 <;> rw [he]
  · rw [if_pos ((reservedPattern_iff w).2 ⟨h0, hj⟩)]
  · rw [if_neg fun h => ((reservedPattern_iff w).1 h).2 hj, trailingCount_of_jsr h0 hj]
  · have hne : opcodeField w ≠ 0 := hop ▸ op.code_ne_zero
    rw [if_neg fun h => hne ((reservedPattern_iff w).1 h).1, trailingCount_of_basic hne,
      Nat.add_assoc]

theorem length_encode_decodeInstr (w t1 t2 : Word) :
    (encode (decodeInstr w t1 t2).1).length = 1 + trailingCount w := by
  have hw : trailingCount w ≤ [t1, t2].length := trailingCount_le_two w
  have hlen := congrArg List.length (encode_decodeInstr w hw)
  simp only [List.length_append, List.length_drop, List.length_cons, List.length_nil, List.getD_cons_zero,
    List.getD_cons_succ] at hlen hw
  omega

/-- Settles O5: the length is one more than the trailing words that the two fields ask for. -/
theorem instructionLength : Obligations.InstructionLength := by
  refine ⟨fun w t1 t2 u1 u2 => by rw [decodeInstr_snd, decodeInstr_snd], fun w t1 t2 hw => ?_⟩
  have := trailingCount_le_two w
  rw [decodeInstr_snd, if_neg hw, length_encode_decodeInstr]
  omega

/-! ### The tables (R20, R64, R66, R67) -/

/-- Settles O3: the fields of R66's table one by one, and the inline literals as the fields of their own
encodings. -/
theorem operandFieldTable : Obligations.OperandFieldTable := by
  refine fun t => ⟨fun r => ?_, rfl, fun n hn => ?_⟩
  · cases r <;> exact ⟨rfl, rfl, rfl, rfl, rfl, rfl⟩
  · have hlit : (BitVec.ofNat 16 n).toNat = n := by
      rw [BitVec.toNat_ofNat]
      omega
    have hwf : (Operand.immInline (BitVec.ofNat 16 n)).wf = true := decide_eq_true (hlit.trans_le hn)
    have hdec := decodeOperand_encodeOperand hwf t
    have htrail := trailing_encodeOperand hwf
    simp only [encodeOperand, hlit] at hdec htrail
    exact ⟨hdec, htrail⟩

/-- Settles O6: the decoder is run on each word. -/
theorem sampleWordsDecode : Obligations.SampleWordsDecode := by
  refine ⟨?_, ?_, ?_⟩ <;> decide

end Sys2Proof

namespace Sys2Proof.Machine

/-! ### The walk of the disassembler (R85, R86) -/

theorem instrTokens_instr (op : BasicOp) (a b : Operand) :
    instrTokens (op.instr a b) = [.op (.basic op), .operand a, .operand b, .newline] := by
  rw [instrTokens, BasicOp.shape_instr]

theorem instrTokens_jsr (x : Operand) :
    instrTokens (.jsr x) = [.op .jsr, .operand x, .newline] := rfl

theorem instrTokens_reservedExtended (e x : BitVec 6) :
    instrTokens (.reservedExtended e x) = [.data (reservedWord e x)] := rfl

theorem disassembleFrom_cons {w : Word} {ws rest : List Word} {i : Instr} {toks : List Token} {fuel : Nat}
    (hdec : decode (w :: ws) = .ok (i, rest))
    (hrest : disassembleFrom fuel rest = .ok toks) :
    disassembleFrom (fuel + 1) (w :: ws) = .ok (instrTokens i ++ toks) := by
  simp only [disassembleFrom, hdec, hrest]

/-- Settles O50: the walk goes on at the next word with as much fuel as a walk of the rest alone has. -/
theorem reservedWordDisassemblesAsData : Obligations.ReservedWordDisassemblesAsData := by
  intro w rest toks hw hrest
  have hwalk := disassembleFrom_cons (decode_of_reservedPattern hw rest) hrest
  rwa [instrTokens_reservedExtended, reservedWord_fields hw, List.singleton_append] at hwalk

theorem encode_eq_cons (i : Instr) : ∃ w ts, encode i = w :: ts := by
  obtain ⟨op, a, b, rfl⟩ | ⟨x, rfl⟩ | ⟨e, x, rfl⟩ := i.cases_shape
  · exact ⟨_, _, encode_instr op a b⟩
  · exact ⟨_, _, encode_jsr x⟩
  · exact ⟨_, _, encode_reservedExtended e x⟩

/-- The walk finds the instructions that were encoded; a step of fuel for each word is enough. -/
theorem disassembleFrom_flatMap_encode {is : List Instr} (hwf : ∀ i ∈ is, i.wf = true) :
    ∀ fuel, (is.flatMap encode).length ≤ fuel →
      disassembleFrom fuel (is.flatMap encode) = .ok (is.flatMap instrTokens) := by
  induction is with
  | nil =>
    intro fuel _
    cases fuel <;> rfl
  | cons i is ih =>
    rw [List.forall_mem_cons] at hwf
    obtain ⟨hi, his⟩ := hwf
    have hdec := decodeOfEncode i (is.flatMap encode) hi
    obtain ⟨w, ts, he⟩ := encode_eq_cons i
    intro fuel hfuel
    rw [List.flatMap_cons, List.flatMap_cons]
    rw [List.flatMap_cons, List.length_append] at hfuel
    rw [he, List.cons_append] at hdec ⊢
    rw [he, List.length_cons] at hfuel
    obtain ⟨fuel, rfl⟩ : ∃ k, fuel = k + 1 := ⟨fuel - 1, by omega⟩
    exact disassembleFrom_cons hdec (ih his fuel (by omega))

/-! ### The encoding pass of the assembler (R81, R83) -/

section
variable {a b x : Operand}

theorem encodeOp_basic (op : BasicOp) (ha : a.wf = true) (hb : b.wf = true) :
    encodeOp (.basic op) [a, b] = .ok (encode (op.instr a b)) :=
  if_pos (by rw [BasicOp.wf_instr, ha, hb]; rfl)

theorem encodeOp_jsr (hx : x.wf = true) : encodeOp .jsr [x] = .ok (encode (.jsr x)) := if_pos hx

end

section
variable (labels : LabelTable) {m : Mnemonic} {xs : List Operand} {x : Operand} {name : Text}
  {ws rest : List Word} {toks : List Token} {e : AsmError}

theorem encodePass_op (m : Mnemonic) (toks : List Token) :
    encodePass labels none (.op m :: toks) = encodePass labels (some (m, [])) toks := by
  rw [encodePass, flushOp]
  cases encodePass labels (some (m, [])) toks <;> rfl

theorem encodePass_operand :
    encodePass labels (some (m, xs)) (.operand x :: toks) =
      encodePass labels (some (m, xs ++ [x])) toks := rfl

theorem encodePass_labelRef (h : labelOperand labels name = .ok x) :
    encodePass labels (some (m, xs)) (.labelRef name :: toks) =
      encodePass labels (some (m, xs ++ [x])) toks := by
  rw [encodePass, h]
  rfl

theorem encodePass_labelRef_error (h : labelOperand labels name = .error e) :
    encodePass labels (some (m, xs)) (.labelRef name :: toks) = .error e := by
  rw [encodePass, h]

theorem encodePass_newline (h : encodeOp m xs = .ok ws) (hrest : encodePass labels none toks = .ok rest) :
    encodePass labels (some (m, xs)) (.newline :: toks) = .ok (ws ++ rest) := by
  rw [encodePass, flushOp, h, hrest]

theorem encodePass_line_end (h : encodeOp m xs = .ok ws) :
    encodePass labels (some (m, xs)) [.newline] = .ok ws := by
  rw [encodePass_newline labels h rfl, List.append_nil]

end

/-- The tokens of an instruction are encoded to its words, whatever the label table. -/
theorem encodePass_instrTokens (labels : LabelTable) {i : Instr} (hwf : i.wf = true)
    (hres : i.isReserved = false) {toks : List Token} {rest : List Word}
    (hrest : encodePass labels none toks = .ok rest) :
    encodePass labels none (instrTokens i ++ toks) = .ok (encode i ++ rest) := by
  obtain ⟨op, a, b, rfl⟩ | ⟨x, rfl⟩ | ⟨e, x, rfl⟩ := i.cases_shape
  · obtain ⟨ha, hb⟩ : a.wf = true ∧ b.wf = true := by simpa using hwf
    simp only [instrTokens_instr, List.cons_append]
    rw [encodePass_op, encodePass_operand, encodePass_operand]
    exact encodePass_newline labels (encodeOp_basic op ha hb) hrest
  · simp only [instrTokens_jsr, List.cons_append]
    rw [encodePass_op, encodePass_operand]
    exact encodePass_newline labels (encodeOp_jsr hwf) hrest
  · cases hres

theorem encodePass_flatMap_instrTokens (labels : LabelTable) {is : List Instr}
    (h : ∀ i ∈ is, i.wf = true ∧ i.isReserved = false) :
    encodePass labels none (is.flatMap instrTokens) = .ok (is.flatMap encode) := by
  induction is with
  | nil => rfl
  | cons i is ih =>
    rw [List.forall_mem_cons] at h
    obtain ⟨⟨hwf, hres⟩, his⟩ := h
    exact encodePass_instrTokens labels hwf hres (ih his)

/-- Settles O49: the walk finds each instruction's tokens, and the encoding pass turns them back into its
words; the label table plays no part. -/
theorem tokenRoundTrip : Obligations.TokenRoundTrip := fun is h =>
  ⟨is.flatMap instrTokens, disassembleFrom_flatMap_encode (fun i hi => (h i hi).1) _ le_rfl,
    encodePass_flatMap_instrTokens _ h⟩

/-! ### Label references (R76, R83) -/

section
variable {labels : LabelTable} {name : Text} {k : Nat}

/-- The opcode word of JSR with an extended immediate (R63, R66). -/
theorem encode_jsr_immExtended (v : Word) : encode (.jsr (.immExtended v)) = [0x7c10, v] := by
  have hword : packWord 0 jsrCode 0x1f = 0x7c10 := by decide
  rw [encode_jsr, encodeOperand, hword]

theorem labelOperand_defined (h : labels.lookup name = some k) (hk : k < 65536) :
    labelOperand labels name = .ok (.immExtended (narrow k)) := by
  rw [labelOperand, h]
  exact if_pos hk

theorem labelOperand_undefined (h : labels.lookup name = none) :
    labelOperand labels name = .error (.undefinedLabel name) := by
  rw [labelOperand, h]

theorem labelOperand_out_of_range (h : labels.lookup name = some k) (hk : 65536 ≤ k) :
    labelOperand labels name = .error .unknownOperandToken := by
  rw [labelOperand, h]
  exact if_neg (Nat.not_lt.2 hk)

end

/-- Settles O52: a label reference adds to the instruction being collected what `labelOperand` answers, in
each place. -/
theorem labelReferenceIsLongForm : Obligations.LabelReferenceIsLongForm := by
  refine fun labels name => ⟨fun k hk hlt => ?_, fun hk => ?_, fun k hk hge => ?_⟩
  · have hlabel := labelOperand_defined hk hlt
    refine ⟨?_, fun op x hx => ⟨?_, ?_, ?_⟩⟩
    · rw [encodePass_op, encodePass_labelRef labels hlabel, ← encode_jsr_immExtended]
      exact encodePass_line_end labels (encodeOp_jsr rfl)
    · rw [encodePass_op, encodePass_labelRef labels hlabel, encodePass_operand]
      exact encodePass_line_end labels (encodeOp_basic op rfl hx)
    · rw [encodePass_op, encodePass_operand, encodePass_labelRef labels hlabel]
      exact encodePass_line_end labels (encodeOp_basic op hx rfl)
    · rw [encodePass_op, encodePass_labelRef labels hlabel, encodePass_labelRef labels hlabel]
      exact encodePass_line_end labels (encodeOp_basic op rfl rfl)
  · have hlabel := labelOperand_undefined hk
    refine ⟨?_, fun op x => ⟨?_, ?_⟩⟩
    · rw [encodePass_op, encodePass_labelRef_error labels hlabel]
    · rw [encodePass_op, encodePass_labelRef_error labels hlabel]
    · rw [encodePass_op, encodePass_operand, encodePass_labelRef_error labels hlabel]
  · rw [encodePass_op, encodePass_labelRef_error labels (labelOperand_out_of_range hk hge)]

/-! ### Numbers as text (R78, R87) -/

theorem digitValue_hexDigit {d : Nat} (hd : d < 16) : digitValue 16 (hexDigit d) = some d := by
  revert d
  decide

theorem plus_ne_hexDigit {d : Nat} (hd : d < 16) : '+' ≠ hexDigit d := by
  revert d
  decide

/-- Reading the digits of a number that fits comes to the number. -/
theorem parseDigits_hexDigits {fuel n : Nat} (hn : n < 16 ^ fuel) (acc : Text) :
    parseDigits 16 0 (hexDigits fuel n acc) = parseDigits 16 n acc := by
  induction fuel generalizing n acc with
  | zero =>
    obtain rfl : n = 0 := by omega
    rfl
  | succ fuel ih =>
    have hdigit := digitValue_hexDigit (Nat.mod_lt n (show 16 > 0 by decide))
    rw [hexDigits]
    split
    · next h =>
      rw [parseDigits, hdigit]
      exact congrArg (parseDigits 16 · acc) (by omega)
    · have hdiv : n / 16 < 16 ^ fuel := Nat.div_lt_of_lt_mul (by rwa [← Nat.pow_succ'])
      rw [ih hdiv, parseDigits, hdigit]
      exact congrArg (parseDigits 16 · acc) (by omega)

theorem hexDigits_ne_nil (fuel n : Nat) (acc : Text) : hexDigits (fuel + 1) n acc ≠ [] := by
  induction fuel generalizing n acc with
  | zero =>
    rw [hexDigits]
    split <;> exact List.cons_ne_nil _ _
  | succ fuel ih =>
    rw [hexDigits]
    split
    · exact List.cons_ne_nil _ _
    · exact ih _ _

theorem plus_notMem_hexDigits (fuel n : Nat) {acc : Text} (hacc : '+' ∉ acc) :
    '+' ∉ hexDigits fuel n acc := by
  induction fuel generalizing n acc with
  | zero => exact hacc
  | succ fuel ih =>
    have hcons : '+' ∉ hexDigit (n % 16) :: acc :=
      List.not_mem_cons_of_ne_of_not_mem (plus_ne_hexDigit (Nat.mod_lt n (by decide))) hacc
    rw [hexDigits]
    split
    · exact hcons
    · exact ih _ hcons

theorem plus_notMem_renderWord (w : Word) : '+' ∉ renderWord w := by
  have hdigits : '+' ∉ hexDigits 4 w.toNat [] := plus_notMem_hexDigits 4 w.toNat (by simp)
  simp [renderWord, hdigits]

theorem parseNumber_renderWord (w : Word) : parseNumber (renderWord w) = some w.toNat := by
  have hne : hexDigits 4 w.toNat [] ≠ [] := hexDigits_ne_nil 3 w.toNat []
  have hparse : parseDigits 16 0 (hexDigits 4 w.toNat []) = some w.toNat :=
    parseDigits_hexDigits w.isLt []
  rw [renderWord, parseNumber]
  · exact hparse
  · exact hne

theorem parseLiteral_renderWord (w : Word) : parseLiteral (renderWord w) = some w := by
  rw [parseLiteral, parseNumber_renderWord]
  exact (if_pos w.isLt).trans (by rw [narrow, BitVec.ofNat_toNat, BitVec.setWidth_eq])

/-! ### Operands as text (R79, R87) -/

theorem parseReg_regName (r : Reg) : parseReg (regName r) = some r := by cases r <;> rfl

/-- A number starts with a digit, so it names no register. -/
theorem parseReg_renderWord (w : Word) : parseReg (renderWord w) = none := by
  rw [parseReg, List.find?_eq_none]
  intro r _
  cases r <;> simp [renderWord, upperText, regName]

theorem lookup_keywords_renderWord (w : Word) : keywords.lookup (upperText (renderWord w)) = none := rfl

theorem splitPlus_append {l : Text} (hl : '+' ∉ l) (r : Text) :
    splitPlus (l ++ '+' :: r) = some (l, r) := by
  induction l with
  | nil => rfl
  | cons c cs ih =>
    rw [List.mem_cons, not_or] at hl
    obtain ⟨hc, hcs⟩ := hl
    rw [List.cons_append, splitPlus, if_neg (Ne.symm hc), ih hcs]

theorem splitPlus_of_notMem {l : Text} (hl : '+' ∉ l) : splitPlus l = none := by
  induction l with
  | nil => rfl
  | cons c cs ih =>
    rw [List.mem_cons, not_or] at hl
    obtain ⟨hc, hcs⟩ := hl
    rw [splitPlus, if_neg (Ne.symm hc), ih hcs]

theorem plus_notMem_regName (r : Reg) : '+' ∉ regName r := by cases r <;> decide

theorem parseBracket_offset (r : Reg) (k : Word) :
    parseBracket (renderWord k ++ '+' :: regName r) = some (.regIndirectOffset r k) := by
  rw [parseBracket, splitPlus_append (plus_notMem_renderWord k)]
  simp only [parseLiteral_renderWord, parseReg_regName]

theorem parseBracket_regName (r : Reg) : parseBracket (regName r) = some (.regIndirect r) := by
  rw [parseBracket, splitPlus_of_notMem (plus_notMem_regName r)]
  simp only [parseReg_regName]

theorem parseBracket_renderWord (k : Word) : parseBracket (renderWord k) = some (.memDirect k) := by
  rw [parseBracket, splitPlus_of_notMem (plus_notMem_renderWord k)]
  simp only [parseReg_renderWord, parseLiteral_renderWord, Option.map_some]

theorem parseOperand_bracket {inside : Text} {x : Operand} (h : parseBracket inside = some x) :
    parseOperand ('[' :: inside ++ [']']) = .ok (.operand x) := by
  rw [List.cons_append, parseOperand, if_pos List.getLast?_concat, List.dropLast_concat, h]

theorem parseOperand_renderWord (w : Word) :
    parseOperand (renderWord w) = .ok (.operand (literalOperand w)) := by
  unfold parseOperand
  split
  · next h => exact absurd h (by simp [renderWord])
  · simp only [parseReg_renderWord, lookup_keywords_renderWord, parseLiteral_renderWord]

theorem literalOperand_of_le {n : Word} (h : n.toNat ≤ 31) : literalOperand n = .immInline n := if_pos h

theorem literalOperand_of_lt {n : Word} (h : 31 < n.toNat) : literalOperand n = .immExtended n :=
  if_neg (Nat.not_le.2 h)

/-- Settles O51: registers and keywords by their names, brackets by what is inside them, and a number as
the literal of R76. -/
theorem operandTextReadsBack : Obligations.OperandTextReadsBack := by
  intro x hwf hlong
  cases x with
  | reg r => cases r <;> rfl
  | regIndirect r => exact parseOperand_bracket (parseBracket_regName r)
  | regIndirectOffset r k => exact parseOperand_bracket (parseBracket_offset r k)
  | pop => rfl
  | peek => rfl
  | push => rfl
  | sp => rfl
  | pc => rfl
  | o => rfl
  | memDirect k => exact parseOperand_bracket (parseBracket_renderWord k)
  | immExtended k =>
    rw [renderOperand, parseOperand_renderWord, literalOperand_of_lt (hlong k rfl)]
  | immInline n =>
    rw [renderOperand, parseOperand_renderWord, literalOperand_of_le (of_decide_eq_true hwf)]

end Sys2Proof.Machine

/-! PROOFS. The family of spec/40_engine.md: what a step of a ready core does, when the core stops, the
operand multiplexer, and what the basic instructions leave in and around their targets. -/

namespace Sys2Proof.Machine

/-! ### The instruction at PC (R69, R70, R103) -/

theorem length_encode_le_three {i : Instr} (hi : i.wf = true) : (encode i).length ≤ 3 := by
  obtain ⟨w, ts, -, -, rfl, -⟩ := decode_eq_ok_iff.1 (decodeOfEncode i [] hi)
  rw [length_encode_decodeInstr]
  have := trailingCount_le_two w
  omega

/-- The words that the fetch reads begin with those of an instruction that stands from PC on. -/
theorem fetchWords_eq_encode_append {i : Instr} {s : State} (hi : i.wf = true)
    (hat : ∀ (k : Nat) (h : k < (encode i).length), s.readMem (s.pc + narrow k) = (encode i)[k]) :
    ∃ rest, encode i ++ rest = [s.fetchWord 0, s.fetchWord 1, s.fetchWord 2] := by
  have hlen := length_encode_le_three hi
  have htake : [s.fetchWord 0, s.fetchWord 1, s.fetchWord 2].take (encode i).length = encode i := by
    refine List.ext_getElem (List.length_take_of_le hlen) fun k _ hk => ?_
    rw [List.getElem_take, ← hat k hk]
    obtain rfl | rfl | rfl : k = 0 ∨ k = 1 ∨ k = 2 := by omega
    all_goals rfl
  rw [← htake]
  exact ⟨_, List.take_append_drop ..⟩

/-- The words of an instruction, standing from PC on, are fetched as that instruction with its length. -/
theorem fetch_of_encode_at_pc {i : Instr} {s : State} (hi : i.wf = true) (hres : i.isReserved = false)
    (hat : ∀ (k : Nat) (h : k < (encode i).length), s.readMem (s.pc + narrow k) = (encode i)[k]) :
    s.fetch = (i, (encode i).length) := by
  obtain ⟨rest, hrest⟩ := fetchWords_eq_encode_append hi hat
  have hdec := decodeOfEncode i rest hi
  rw [hrest] at hdec
  obtain ⟨_, _, ⟨rfl, rfl⟩, -, hfst, -⟩ := decode_eq_ok_iff.1 hdec
  have hfetch : s.fetch.1 = i := hfst.symm
  refine Prod.ext hfetch ?_
  have hpat : ¬ reservedPattern (s.fetchWord 0) := fun h =>
    absurd hres (by rw [hfst, (isReserved_decodeInstr_iff ..).2 h]; decide)
  rw [← hfetch, State.fetch, decodeInstr_snd, if_neg hpat, length_encode_decodeInstr]

/-! ### A step of a ready core (R102 to R104, R174) -/

theorem isReserved_fetch_iff (s : State) :
    s.fetch.1.isReserved = true ↔ reservedPattern (s.readMem s.pc) := by
  rw [State.fetch, isReserved_decodeInstr_iff, fetchWord_zero]

/-- A ready core takes a fault, skips the instruction at PC or executes it. -/
theorem step_cases_of_ready {s : State} (hs : s.Ready) :
    (reservedPattern (s.readMem s.pc) ∧
      step s = .next (s.markPc.takeFault .unrecognizedExtended (s.readMem s.pc))) ∨
    (s.fetch.1.isReserved = false ∧ s.skipNext = true ∧
      step s = .next ((s.markPc.advance s.fetch.2).setSkip false)) ∨
    (s.fetch.1.isReserved = false ∧ s.skipNext = false ∧
      step s = exec s.fetch.1 (s.markPc.advance s.fetch.2)) := by
  obtain ⟨hfault, hhalt⟩ := ready_iff.1 hs
  obtain ⟨h, -⟩ | ⟨-, h, -⟩ | ⟨-, -, hres, hp⟩ | ⟨-, -, hres, hskip, hp⟩ | ⟨-, -, hres, hskip, hp⟩ :=
    prepare_cases s
  · exact absurd h (by simp [hfault])
  · exact absurd h (by simp [hhalt])
  · obtain ⟨hfetch, hword⟩ := fetch_reserved hres
    refine .inl ⟨(isReserved_fetch_iff s).1 hres, ?_⟩
    rw [step_of_run hp, hfetch, exec_reservedExtended, hword]
  · exact .inr (.inl ⟨hres, hskip, step_of_done hp⟩)
  · exact .inr (.inr ⟨hres, hskip, step_of_run hp⟩)

section
variable {s : State} (hs : s.Ready)
include hs

theorem step_of_reservedPattern (hpat : reservedPattern (s.readMem s.pc)) :
    step s = .next (s.markPc.takeFault .unrecognizedExtended (s.readMem s.pc)) := by
  have hres := (isReserved_fetch_iff s).2 hpat
  obtain ⟨-, hstep⟩ | ⟨hno, -⟩ | ⟨hno, -⟩ := step_cases_of_ready hs
  · exact hstep
  all_goals exact absurd hres (by simp [hno])

theorem step_of_skip (hres : s.fetch.1.isReserved = false) (hskip : s.skipNext = true) :
    step s = .next ((s.markPc.advance s.fetch.2).setSkip false) := by
  obtain ⟨hpat, -⟩ | ⟨-, -, hstep⟩ | ⟨-, hno, -⟩ := step_cases_of_ready hs
  · exact absurd ((isReserved_fetch_iff s).2 hpat) (by simp [hres])
  · exact hstep
  · exact absurd hskip (by simp [hno])

theorem step_of_no_skip (hres : s.fetch.1.isReserved = false) (hskip : s.skipNext = false) :
    step s = exec s.fetch.1 (s.markPc.advance s.fetch.2) := by
  obtain ⟨hpat, -⟩ | ⟨-, hno, -⟩ | ⟨-, -, hstep⟩ := step_cases_of_ready hs
  · exact absurd ((isReserved_fetch_iff s).2 hpat) (by simp [hres])
  · exact absurd hno (by simp [hskip])
  · exact hstep

/-- A word that is not reserved leaves the core unfaulted, skipped or not. -/
theorem step_of_not_reservedPattern (hpat : ¬ reservedPattern (s.readMem s.pc)) :
    ∃ t, step s = .next t ∧ t.faulted = none := by
  obtain ⟨h, -⟩ | ⟨-, -, hstep⟩ | ⟨hres, -, hstep⟩ := step_cases_of_ready hs
  · exact absurd h hpat
  · exact ⟨_, hstep, hs.1⟩
  · obtain ⟨t, ht⟩ := exec_next s.fetch.1 (s.markPc.advance s.fetch.2)
    exact ⟨t, hstep.trans ht, ((exec_keeps_record ht).2 hres).trans hs.1⟩

/-- A step that passes the halt check records PC (R102). -/
theorem lastPc_of_ready_step {t : State} (ht : step s = .next t) : t.lastPc = some s.pc := by
  obtain ⟨-, hstep⟩ | ⟨-, -, hstep⟩ | ⟨-, -, hstep⟩ := step_cases_of_ready hs <;> rw [hstep] at ht
  · cases ht
    rfl
  · cases ht
    rfl
  · exact (exec_keeps_record ht).1

end

/-- Settles O10: the words at PC are fetched as the instruction, and nothing keeps it from running. -/
theorem stepRunsInstructionAtPc : Obligations.StepRunsInstructionAtPc := by
  intro i s hi hres hs hskip hat
  have hfetch := fetch_of_encode_at_pc hi hres hat
  rw [step_of_no_skip hs (by rwa [hfetch]) hskip, hfetch]
  rfl

/-- Settles O12: the fault is taken in the state that has only PC recorded. -/
theorem reservedWordFaults : Obligations.ReservedWordFaults :=
  fun _ hs hpat => step_of_reservedPattern hs hpat

/-- Settles O15: the halt check compares PC with the recorded old PC, and a skip advances PC by one to
three words. -/
theorem haltedExactlyAtOwnAddress : Obligations.HaltedExactlyAtOwnAddress := by
  intro s t hs ht
  have hlast := lastPc_of_ready_step hs ht
  have hhalt : t.isHalted = true ↔ t.pc = s.pc := by
    rw [isHalted_iff, hlast, Option.some.injEq, eq_comm]
  refine ⟨hlast, hhalt, fun hskip hpat => Bool.eq_false_iff.2 (mt hhalt.1 ?_)⟩
  have hres : s.fetch.1.isReserved = false := Bool.eq_false_iff.2 (mt (isReserved_fetch_iff s).1 hpat)
  rw [step_of_skip hs hres hskip] at ht
  cases ht
  obtain ⟨hone, hthree⟩ := fetch_length hres
  exact advance_ne s.pc hone hthree

/-! ### Stopped cores and the status of a step (R101, R110, R174) -/

theorem not_ready_iff {s : State} : ¬ s.Ready ↔ s.faulted ≠ none ∨ s.lastPc = some s.pc := by
  simp only [State.Ready, not_and_or, not_not, ne_eq]

theorem run_of_not_ready {s : State} (hs : ¬ s.Ready) (n : Nat) :
    Host.Core.run Sys2Proof.core n s = .next s := by
  induction n with
  | zero => rfl
  | succ n ih =>
    have hstep : Sys2Proof.core.step s = .next s := step_of_not_ready hs
    simp only [Host.Core.run, hstep, ih]

/-- Settles O14: a core that is not ready answers its own state, step after step. -/
theorem stoppedCoreNeverChanges : Obligations.StoppedCoreNeverChanges :=
  fun n _ hstop => run_of_not_ready (not_ready_iff.2 hstop) n

theorem transaction_of_step {s t : State} (h : step s = .next t) :
    transaction s = .next (t, stepStatus s t) := by
  rw [transaction, h]

theorem stepStatus_of_faulted {s t : State} (ht : t.faulted ≠ none) : stepStatus s t = .faulted := by
  have hfault : t.isFaulted = true := Option.isSome_iff_ne_none.2 ht
  rw [stepStatus, if_pos hfault]

theorem stepStatus_of_not_faulted {s t : State} (ht : t.faulted = none) :
    stepStatus s t = if s.isHalted then .halted else .running := by
  rw [stepStatus, isFaulted_iff.2 ht, if_neg Bool.false_ne_true]

theorem stepStatus_of_ready {s t : State} (hs : s.Ready) (ht : t.faulted = none) :
    stepStatus s t = .running := by
  rw [stepStatus_of_not_faulted ht, (ready_iff.1 hs).2, if_neg Bool.false_ne_true]

/-- Settles O11: the fetch gives the instruction's length, and a pending skip ends the step there. -/
theorem skippedInstructionOnlyAdvances : Obligations.SkippedInstructionOnlyAdvances := by
  intro i s hi hres hs hskip hat
  have hfetch := fetch_of_encode_at_pc hi hres hat
  have hstep := step_of_skip hs (by rwa [hfetch]) hskip
  rw [hfetch] at hstep
  refine ⟨hstep, ?_⟩
  rw [transaction_of_step hstep, stepStatus_of_ready hs]
  · rfl
  · exact hs.1

/-- Settles O16: a stopped core answers its own state; a ready one is faulted by a reserved word only. -/
theorem statusOfStep : Obligations.StatusOfStep := by
  refine fun s => ⟨fun hfault => ?_, fun hno hhalt => ?_, fun hs hpat => ?_, fun hs hpat => ?_⟩
  · have hstep := step_of_not_ready (not_ready_iff.2 (.inl hfault))
    rw [transaction_of_step hstep, stepStatus_of_faulted hfault]
  · have hstep := step_of_not_ready (not_ready_iff.2 (.inr hhalt))
    rw [transaction_of_step hstep, stepStatus_of_not_faulted hno, if_pos (isHalted_iff.2 hhalt)]
  · have hstep := step_of_reservedPattern hs hpat
    exact ⟨_, by rw [transaction_of_step hstep, stepStatus_of_faulted (by simp)]⟩
  · obtain ⟨t, hstep, ht⟩ := step_of_not_reservedPattern hs hpat
    exact ⟨t, by rw [transaction_of_step hstep, stepStatus_of_ready hs ht]⟩

/-! ### Operands (R106, R112, R113) -/

/-- Adding 65535 to a word takes one from it, modulo 2^16 (R10). -/
theorem toNat_sub_one (w : Word) : (w - 1).toNat = (w.toNat + 65535) % 65536 := by
  rw [BitVec.toNat_sub]
  simp [Nat.add_comm]

/-- Settles O18: each kind's location is read in the state its resolution leaves. -/
theorem operandKindsRead : Obligations.OperandKindsRead := fun s r k =>
  ⟨rfl, rfl, ⟨k + s.regs.get r, BitVec.toNat_add .., rfl⟩, ⟨s.sp + 1, BitVec.toNat_add .., rfl⟩, rfl,
    ⟨s.sp - 1, toNat_sub_one s.sp, rfl⟩, rfl, rfl, rfl, rfl, rfl, rfl⟩

/-- Settles O20: A is resolved and read in the state that B's resolution left. -/
theorem operandBBeforeA : Obligations.OperandBBeforeA := fun a b s =>
  ⟨gather_vB a b s, gather_vA a b s, gather_state a b s, gather_loc a b s⟩

theorem readLoc_writeLoc_same {l : Loc} (hl : ∀ k, l ≠ .lit k) (v : Word) {s : State}
    (hm : Memory.wf s.mem = true) : readLoc l (writeLoc l v s) = v := by
  cases l with
  | reg r => exact RegFile.get_set_same s.regs r v
  | mem addr => exact Memory.read_write_same hm addr v
  | lit k => exact absurd rfl (hl k)
  | sp | pc | o => rfl

theorem readLoc_writeLoc_of_ne {l m : Loc} (h : m ≠ l) (v : Word) (s : State) :
    readLoc m (writeLoc l v s) = readLoc m s := by
  cases m with
  | reg r => exact writeLoc_get h.symm v s
  | sp => exact writeLoc_sp h.symm v s
  | pc => exact writeLoc_pc h.symm v s
  | o => exact writeLoc_o h.symm v s
  | mem addr => exact writeLoc_readMem h.symm v s
  | lit k => rfl

/-- Settles O21, location by location. -/
theorem locationReadsBack : Obligations.LocationReadsBack := by
  refine fun l m v s hm => ⟨fun hl => readLoc_writeLoc_same hl v hm, ?_, fun h =>
    readLoc_writeLoc_of_ne h v s⟩
  rintro ⟨k, rfl⟩
  rfl

/-! ### SET and the stack (R114, R130) -/

/-- SET writes B's value to A's location; O is written back as it was. -/
theorem exec_set (a b : Operand) (s : State) :
    exec (.set a b) s = .next (writeLoc (gather a b s).loc (gather a b s).vB (gather a b s).state) := rfl

/-- Settles O19: a literal as B leaves the state, so A is resolved and written in the state itself. -/
theorem setWritesEachTarget : Obligations.SetWritesEachTarget := by
  intro s r k v
  simp only [exec_set]
  exact ⟨rfl, rfl, ⟨k + s.regs.get r, BitVec.toNat_add .., rfl⟩, ⟨s.sp + 1, BitVec.toNat_add .., rfl⟩, rfl,
    ⟨s.sp - 1, toNat_sub_one s.sp, rfl⟩, rfl, rfl, rfl, rfl, rfl, rfl⟩

theorem writeMem_readMem_self {s : State} (hm : Memory.wf s.mem = true) (addr : Word) :
    s.writeMem addr (s.readMem addr) = s := by
  rw [State.writeMem, State.readMem, Memory.write_read_self hm]
  rfl

/-- SET PUSH, POP writes the top word back where it was. -/
theorem exec_set_push_pop {s : State} (hm : Memory.wf s.mem = true) :
    exec (.set .push .pop) s = .next s := by
  have hsp : s.sp + 1 - 1 = s.sp := BitVec.add_sub_cancel ..
  have hset : exec (.set .push .pop) s =
      .next ((s.setSp (s.sp + 1 - 1)).writeMem (s.sp + 1 - 1) (s.readMem s.sp)) := rfl
  rw [hset, hsp]
  exact congrArg _ (writeMem_readMem_self hm s.sp)

/-- SET POP, PUSH writes the word below the top back where it was. -/
theorem exec_set_pop_push {s : State} (hm : Memory.wf s.mem = true) :
    exec (.set .pop .push) s = .next s := by
  have hsp : s.sp - 1 + 1 = s.sp := BitVec.sub_add_cancel ..
  have hset : exec (.set .pop .push) s =
      .next ((s.setSp (s.sp - 1 + 1)).writeMem (s.sp - 1) (s.readMem (s.sp - 1))) := rfl
  rw [hset, hsp]
  exact congrArg _ (writeMem_readMem_self hm (s.sp - 1))

/-! ### ALU results as numbers (R131 to R137) -/

section
variable (vA vB o : Word)

theorem aluAdd_fst_toNat : (aluAdd vA vB o).1.toNat = (vA.toNat + vB.toNat) % 65536 :=
  BitVec.toNat_ofNat ..

theorem aluSub_fst_toNat : ((aluSub vA vB o).1.toNat : Int) = (vA.toNat - vB.toNat : Int) % 65536 := by
  have h : (aluSub vA vB o).1.toNat = ((vA.toNat - vB.toNat : Int) % (2 ^ 16 : Nat)).toNat :=
    BitVec.toNat_ofInt ..
  omega

theorem aluMul_fst_toNat : (aluMul vA vB o).1.toNat = vA.toNat * vB.toNat % 65536 :=
  BitVec.toNat_ofNat ..

/-- The quotient fits a word, and the model's 0 for the divisor 0 is the naturals' quotient. -/
theorem aluDiv_fst_toNat : (aluDiv vA vB o).1.toNat = vA.toNat / vB.toNat := by
  unfold aluDiv
  split
  · next h => simp [h]
  · have hle := Nat.div_le_self vA.toNat vB.toNat
    exact (BitVec.toNat_ofNat ..).trans (Nat.mod_eq_of_lt (hle.trans_lt vA.isLt))

theorem aluShl_fst_toNat : (aluShl vA vB o).1.toNat = vA.toNat * 2 ^ vB.toNat % 65536 := by
  rw [← Nat.shiftLeft_eq]
  exact BitVec.toNat_ofNat ..

theorem aluShr_fst_toNat : (aluShr vA vB o).1.toNat = vA.toNat / 2 ^ vB.toNat := by
  rw [← Nat.shiftRight_eq_div_pow]
  have hle := Nat.shiftRight_le vA.toNat vB.toNat
  exact (BitVec.toNat_ofNat ..).trans (Nat.mod_eq_of_lt (hle.trans_lt vA.isLt))

end

/-- With A = O the result is written over the overflow value (R107). -/
theorem runAlu_o_of_target_o (f : AluOp) (b : Operand) (s : State) :
    (runAlu f .o b s).o = (f s.o (getValue b s).2 s.o).1 := by
  have hvA : (gather .o b s).vA = s.o := resolve_o b s
  rw [runAlu_eq, hvA]
  rfl

/-- Settles O32: each opcode's result with the old O as A's value. -/
theorem resultWinsInO : Obligations.ResultWinsInO := by
  refine fun b s => ⟨_, _, _, _, _, _, rfl, rfl, rfl, rfl, rfl, rfl, ?_, ?_, ?_, ?_, ?_, ?_⟩ <;>
    rw [runAlu_o_of_target_o]
  · exact aluAdd_fst_toNat ..
  · exact aluSub_fst_toNat ..
  · exact aluMul_fst_toNat ..
  · exact aluDiv_fst_toNat ..
  · exact aluShl_fst_toNat ..
  · exact aluShr_fst_toNat ..

/-- Settles O22: the two SETs write a word back to its own address, and ADD adds to the word that POP
leaves on top. -/
theorem pushPopPairs : Obligations.PushPopPairs := by
  refine fun s hm => ⟨exec_set_push_pop hm, exec_set_pop_push hm, runAlu aluAdd .peek .pop s, rfl, rfl, ?_⟩
  have htop : (runAlu aluAdd .peek .pop s).readMem (s.sp + 1) =
      (aluAdd (s.readMem (s.sp + 1)) (s.readMem s.sp) s.o).1 :=
    Memory.read_write_same hm ..
  exact (congrArg BitVec.toNat htop).trans (aluAdd_fst_toNat ..)

/-! ### Frames of the conditionals and of literal targets (R106, R113, R150) -/

theorem basicEffect_of_not_writesA {op : BasicOp} (h : op.writesA = false) :
    ∃ c, basicEffect op = .inr c := by
  obtain ⟨halu, -⟩ | ⟨-, hc⟩ := runBasic_cases op
  · rw [h] at halu
    cases halu
  · exact hc

/-- Settles O40: a conditional leaves the operand phase's state with skip_next set or kept. -/
theorem conditionalFrame : Obligations.ConditionalFrame := by
  intro op a b s t hop ht
  obtain ⟨c, hc⟩ := basicEffect_of_not_writesA hop
  rw [exec_instr, runBasic_test hc, runTest_eq] at ht
  cases ht
  refine ⟨gather_state_regs a b s, gather_state_pc a b s, gather_state_o a b s, gather_state_mem a b s,
    gather_state_lastPc a b s, gather_state_faulted a b s, fun ha hb => gather_state_sp ha hb s,
    fun hskip => ?_⟩
  rw [State.setSkip_skipNext, hskip, Bool.true_or]

/-- A literal as A takes no write, so only B's resolution and O change the state (decision D10). -/
theorem runAlu_of_literal (f : AluOp) {a : Operand} (ha : ∃ k, a = .immExtended k ∨ a = .immInline k)
    (b : Operand) (s : State) :
    runAlu f a b s =
      (getValue b s).1.setO (f (gather a b s).vA (gather a b s).vB s.o).2 := by
  rw [runAlu_eq]
  obtain ⟨k, rfl | rfl⟩ := ha
  · rfl
  · rfl

/-- Settles O41: B's resolution moves SP alone, and O is then written by the opcodes of R25 only. -/
theorem literalTargetFrame : Obligations.LiteralTargetFrame := by
  intro op a b s t hop ha ht
  obtain ⟨f, hf⟩ := basicEffect_of_writesA hop
  rw [exec_instr, runBasic_alu hf, runAlu_of_literal f ha] at ht
  cases ht
  exact ⟨resolve_regs b s, resolve_pc b s, resolve_mem b s, rfl, resolve_skipNext b s, resolve_lastPc b s,
    resolve_faulted b s, fun hwo => alu_keeps_o hf hwo ..⟩

end Sys2Proof.Machine

/-! PROOFS. The family of spec/41_alu.md: the result and O of each instruction that moves, computes or
shifts, in the numbers of R130 to R140. -/

namespace Sys2Proof.Machine

/-! ### Executing an ALU instruction (R106, R107) -/

theorem exec_instr_alu {op : BasicOp} {f : AluOp} (hf : basicEffect op = .inl f) (a b : Operand)
    (s : State) :
    exec (op.instr a b) s =
      .next (writeLoc (gather a b s).loc (f (gather a b s).vA (gather a b s).vB s.o).1
        ((gather a b s).state.setO (f (gather a b s).vA (gather a b s).vB s.o).2)) := by
  rw [exec_instr, runBasic_alu hf, runAlu_eq]

theorem gather_state_setO_self (a b : Operand) (s : State) :
    (gather a b s).state.setO s.o = (gather a b s).state := by
  rw [← gather_state_o a b s]
  rfl

/-- An opcode that leaves O alone writes A's location in the state of the operand phase (R25). -/
theorem exec_instr_alu_of_keeps_o {op : BasicOp} {f : AluOp} (hf : basicEffect op = .inl f)
    (hw : op.writesO = false) (a b : Operand) (s : State) :
    exec (op.instr a b) s =
      .next (writeLoc (gather a b s).loc (f (gather a b s).vA (gather a b s).vB s.o).1
        (gather a b s).state) := by
  rw [exec_instr_alu hf, alu_keeps_o hf hw, gather_state_setO_self]

/-! ### What the ALU puts in O, and MOD's result, as numbers (R131 to R137) -/

section
variable (vA vB o : Word)

theorem aluAdd_snd_toNat :
    (aluAdd vA vB o).2.toNat = if vA.toNat + vB.toNat > 0xffff then 1 else 0 :=
  apply_ite BitVec.toNat ..

theorem aluSub_snd_toNat : (aluSub vA vB o).2.toNat = if vA.toNat < vB.toNat then 0xffff else 0 := by
  have hneg : (vA.toNat : Int) - vB.toNat < 0 ↔ vA.toNat < vB.toNat := by omega
  simp only [aluSub, hneg]
  exact apply_ite BitVec.toNat ..

/-- The product of two words is below 2^32, so its high half needs no narrowing. -/
theorem aluMul_snd_toNat : (aluMul vA vB o).2.toNat = vA.toNat * vB.toNat / 65536 := by
  have hlt : vA.toNat * vB.toNat < 65536 * 65536 := Nat.mul_lt_mul'' vA.isLt vB.isLt
  have hhigh : (aluMul vA vB o).2.toNat = (vA.toNat * vB.toNat) >>> 16 % 65536 := BitVec.toNat_ofNat ..
  rw [hhigh, Nat.shiftRight_eq_div_pow]
  exact Nat.mod_eq_of_lt (Nat.div_lt_of_lt_mul hlt)

/-- The model's 0 for the divisor 0 is the naturals' quotient. -/
theorem aluDiv_snd_toNat : (aluDiv vA vB o).2.toNat = vA.toNat * 65536 / vB.toNat % 65536 := by
  unfold aluDiv
  split
  · next h => simp [h]
  · rw [← Nat.shiftLeft_eq vA.toNat 16]
    exact BitVec.toNat_ofNat ..

theorem aluMod_fst_of_zero (h : vB = 0) : (aluMod vA vB o).1 = 0 := by
  subst h
  rfl

theorem aluMod_fst_toNat (h : vB ≠ 0) : (aluMod vA vB o).1.toNat = vA.toNat % vB.toNat := by
  have hpos : vB.toNat ≠ 0 := fun h0 => h (BitVec.eq_of_toNat_eq h0)
  have hle := Nat.mod_le vA.toNat vB.toNat
  rw [aluMod, if_neg hpos]
  exact (BitVec.toNat_ofNat ..).trans (Nat.mod_eq_of_lt (hle.trans_lt vA.isLt))

theorem aluShl_snd_toNat :
    (aluShl vA vB o).2.toNat = vA.toNat * 2 ^ vB.toNat / 65536 % 65536 := by
  rw [← Nat.shiftLeft_eq]
  exact (BitVec.toNat_ofNat ..).trans (by rw [Nat.shiftRight_eq_div_pow])

theorem aluShr_snd_toNat :
    (aluShr vA vB o).2.toNat = vA.toNat * 65536 / 2 ^ vB.toNat % 65536 := by
  rw [← Nat.shiftLeft_eq vA.toNat 16, ← Nat.shiftRight_eq_div_pow]
  exact BitVec.toNat_ofNat ..

end

/-! ### Closed forms of the shifts (R136, R137): 16 is the amount where result and O change roles -/

theorem two_pow_eq_mul_of_le {n : Nat} (h : 16 ≤ n) : 2 ^ n = 2 ^ (n - 16) * 65536 :=
  (pow_sub_mul_pow 2 h).symm

theorem two_pow_sub_mul_two_pow {n : Nat} (h : n ≤ 16) : 2 ^ (16 - n) * 2 ^ n = 65536 :=
  pow_sub_mul_pow 2 h

theorem mul_two_pow_mod_of_le (k : Nat) {n : Nat} (h : 16 ≤ n) : k * 2 ^ n % 65536 = 0 := by
  rw [two_pow_eq_mul_of_le h, ← Nat.mul_assoc, Nat.mul_mod_left]

theorem toNat_div_two_pow_of_le (w : Word) {n : Nat} (h : 16 ≤ n) : w.toNat / 2 ^ n = 0 :=
  Nat.div_eq_of_lt (w.isLt.trans_le (Nat.pow_le_pow_right (by decide) h))

section
variable {vA vB : Word} (o : Word)

/-- Up to 16, O of SHL holds the bits shifted out of the top. -/
theorem aluShl_snd_of_le (h : vB.toNat ≤ 16) :
    (aluShl vA vB o).2.toNat = vA.toNat / 2 ^ (16 - vB.toNat) := by
  have hle := Nat.div_le_self vA.toNat (2 ^ (16 - vB.toNat))
  rw [aluShl_snd_toNat, ← two_pow_sub_mul_two_pow h,
    Nat.mul_div_mul_right _ _ (Nat.two_pow_pos _), two_pow_sub_mul_two_pow h,
    Nat.mod_eq_of_lt (hle.trans_lt vA.isLt)]

/-- From 16 on, all of SHL's value has left the result. -/
theorem aluShl_fst_of_ge (h : 16 ≤ vB.toNat) : (aluShl vA vB o).1 = 0 :=
  BitVec.eq_of_toNat_eq ((aluShl_fst_toNat ..).trans (mul_two_pow_mod_of_le _ h))

/-- From 16 on, O of SHL is the value shifted left by what is left of the amount. -/
theorem aluShl_snd_of_ge (h : 16 ≤ vB.toNat) :
    (aluShl vA vB o).2.toNat = vA.toNat * 2 ^ (vB.toNat - 16) % 65536 := by
  rw [aluShl_snd_toNat, two_pow_eq_mul_of_le h, ← Nat.mul_assoc, Nat.mul_div_left _ (by decide)]

theorem aluShl_fst_of_zero (h : vB.toNat = 0) : (aluShl vA vB o).1 = vA := by
  apply BitVec.eq_of_toNat_eq
  rw [aluShl_fst_toNat, h, pow_zero, Nat.mul_one]
  exact Nat.mod_eq_of_lt vA.isLt

theorem aluShl_snd_of_zero (h : vB.toNat = 0) : (aluShl vA vB o).2 = 0 := by
  apply BitVec.eq_of_toNat_eq
  rw [aluShl_snd_of_le o (by omega)]
  exact toNat_div_two_pow_of_le vA (by omega)

theorem aluShl_snd_of_eq (h : vB.toNat = 16) : (aluShl vA vB o).2 = vA := by
  apply BitVec.eq_of_toNat_eq
  rw [aluShl_snd_of_le o h.le, h, Nat.sub_self, pow_zero, Nat.div_one]

/-- From 32 on, all of SHL's value has left O too. -/
theorem aluShl_snd_of_ge_32 (h : 32 ≤ vB.toNat) : (aluShl vA vB o).2 = 0 := by
  apply BitVec.eq_of_toNat_eq
  rw [aluShl_snd_of_ge o (by omega)]
  exact mul_two_pow_mod_of_le vA.toNat (by omega)

/-- Up to 16, O of SHR holds the bits shifted out of the bottom, aligned to the top. -/
theorem aluShr_snd_of_le (h : vB.toNat ≤ 16) :
    (aluShr vA vB o).2.toNat = vA.toNat * 2 ^ (16 - vB.toNat) % 65536 := by
  rw [aluShr_snd_toNat, ← two_pow_sub_mul_two_pow h, ← Nat.mul_assoc,
    Nat.mul_div_left _ (Nat.two_pow_pos _)]

/-- From 16 on, all of SHR's value has left the result. -/
theorem aluShr_fst_of_ge (h : 16 ≤ vB.toNat) : (aluShr vA vB o).1 = 0 :=
  BitVec.eq_of_toNat_eq ((aluShr_fst_toNat ..).trans (toNat_div_two_pow_of_le vA h))

/-- From 16 on, O of SHR is the value shifted right by what is left of the amount. -/
theorem aluShr_snd_of_ge (h : 16 ≤ vB.toNat) :
    (aluShr vA vB o).2.toNat = vA.toNat / 2 ^ (vB.toNat - 16) := by
  have hle := Nat.div_le_self vA.toNat (2 ^ (vB.toNat - 16))
  rw [aluShr_snd_toNat, two_pow_eq_mul_of_le h, Nat.mul_div_mul_right _ _ (by decide),
    Nat.mod_eq_of_lt (hle.trans_lt vA.isLt)]

theorem aluShr_fst_of_zero (h : vB.toNat = 0) : (aluShr vA vB o).1 = vA := by
  apply BitVec.eq_of_toNat_eq
  rw [aluShr_fst_toNat, h, pow_zero, Nat.div_one]

theorem aluShr_snd_of_zero (h : vB.toNat = 0) : (aluShr vA vB o).2 = 0 := by
  apply BitVec.eq_of_toNat_eq
  rw [aluShr_snd_of_le o (by omega)]
  exact mul_two_pow_mod_of_le vA.toNat (by omega)

theorem aluShr_snd_of_eq (h : vB.toNat = 16) : (aluShr vA vB o).2 = vA := by
  apply BitVec.eq_of_toNat_eq
  rw [aluShr_snd_of_ge o h.ge, h, Nat.sub_self, pow_zero, Nat.div_one]

/-- From 32 on, all of SHR's value has left O too. -/
theorem aluShr_snd_of_ge_32 (h : 32 ≤ vB.toNat) : (aluShr vA vB o).2 = 0 := by
  apply BitVec.eq_of_toNat_eq
  rw [aluShr_snd_of_ge o (by omega)]
  exact toNat_div_two_pow_of_le vA (by omega)

end

/-! ### The shifts (R136, R137) -/

/-- Settles O29: the general formula for the result, and for O one closed form up to 16 and one from 16
on. -/
theorem shlResult : Obligations.ShlResult := by
  refine fun a b s => ⟨_, _, exec_instr_alu (op := .shl) rfl a b s, ?_, ?_, ?_, ?_, ?_⟩
  · exact fun h => ⟨aluShl_fst_of_zero _ h, aluShl_snd_of_zero _ h⟩
  · exact fun _ h => ⟨aluShl_fst_toNat .., aluShl_snd_of_le _ (by omega)⟩
  · exact fun h => ⟨aluShl_fst_of_ge _ h.ge, aluShl_snd_of_eq _ h⟩
  · exact fun h _ => ⟨aluShl_fst_of_ge _ (by omega), aluShl_snd_of_ge _ (by omega)⟩
  · exact fun h => ⟨aluShl_fst_of_ge _ (by omega), aluShl_snd_of_ge_32 _ h⟩

/-- Settles O30: the general formula for the result, and for O one closed form up to 16 and one from 16
on. -/
theorem shrResult : Obligations.ShrResult := by
  refine fun a b s => ⟨_, _, exec_instr_alu (op := .shr) rfl a b s, ?_, ?_, ?_, ?_, ?_⟩
  · exact fun h => ⟨aluShr_fst_of_zero _ h, aluShr_snd_of_zero _ h⟩
  · exact fun _ h => ⟨aluShr_fst_toNat .., aluShr_snd_of_le _ (by omega)⟩
  · exact fun h => ⟨aluShr_fst_of_ge _ h.ge, aluShr_snd_of_eq _ h⟩
  · exact fun h _ => ⟨aluShr_fst_of_ge _ (by omega), aluShr_snd_of_ge _ (by omega)⟩
  · exact fun h => ⟨aluShr_fst_of_ge _ (by omega), aluShr_snd_of_ge_32 _ h⟩

/-! ### Products, quotients and remainders (R133 to R135) -/

/-- Settles O26: O and the result are the product's quotient and remainder by 65536. -/
theorem mulResult : Obligations.MulResult := by
  refine fun a b s => ⟨_, _, exec_instr_alu (op := .mul) rfl a b s, ?_⟩
  rw [aluMul_fst_toNat, aluMul_snd_toNat]
  exact Nat.div_add_mod' ..

/-- Settles O27: for the divisor 0 both quotients of the naturals are 0. -/
theorem divResult : Obligations.DivResult := by
  refine fun a b s => ⟨_, _, exec_instr_alu (op := .div) rfl a b s, fun h => ?_, fun _ =>
    ⟨aluDiv_fst_toNat .., aluDiv_snd_toNat ..⟩⟩
  rw [h]
  exact ⟨BitVec.eq_of_toNat_eq ((aluDiv_fst_toNat ..).trans (Nat.div_zero _)), rfl⟩

/-- Settles O28: MOD is an opcode that leaves O alone, whatever the divisor. -/
theorem modResult : Obligations.ModResult := fun a b s =>
  ⟨_, exec_instr_alu_of_keeps_o (op := .mod) rfl rfl a b s, aluMod_fst_of_zero _ _ _,
    aluMod_fst_toNat _ _ _⟩

/-! ### Moves, sums, differences and bitwise operations (R130 to R132, R138 to R140) -/

/-- Settles O23: SET's result is B's value, and O is written back as it was. -/
theorem setResult : Obligations.SetResult := exec_set

/-- Settles O24: the sum narrowed, and the carry as a number. -/
theorem addResult : Obligations.AddResult := fun a b s =>
  ⟨_, _, exec_instr_alu (op := .add) rfl a b s, aluAdd_fst_toNat .., aluAdd_snd_toNat ..⟩

/-- Settles O25: the integer difference narrowed, and the borrow as a number. -/
theorem subResult : Obligations.SubResult := fun a b s =>
  ⟨_, _, exec_instr_alu (op := .sub) rfl a b s, aluSub_fst_toNat .., aluSub_snd_toNat ..⟩

/-- Settles O31: the three opcodes leave O alone, and the word operations act on each bit. -/
theorem bitwiseResults : Obligations.BitwiseResults := fun a b s =>
  ⟨_, _, _, exec_instr_alu_of_keeps_o (op := .and) rfl rfl a b s,
    exec_instr_alu_of_keeps_o (op := .bor) rfl rfl a b s,
    exec_instr_alu_of_keeps_o (op := .xor) rfl rfl a b s,
    fun _ => ⟨BitVec.getLsbD_and, BitVec.getLsbD_or, BitVec.getLsbD_xor⟩⟩

end Sys2Proof.Machine

/-! PROOFS. The family of spec/42_conditional.md: the conditions of IFE, IFN, IFG and IFB, and the
invariant that every step keeps, with the skip that cannot be pending in a halted core. -/

namespace Sys2Proof.Machine

/-! ### The conditions (R151 to R154) -/

theorem condIfe_iff {vA vB : Word} : condIfe vA vB = true ↔ vA.toNat = vB.toNat :=
  decide_eq_true_iff.trans BitVec.toNat_inj.symm

theorem condIfn_iff {vA vB : Word} : condIfn vA vB = true ↔ ¬ vA.toNat = vB.toNat :=
  decide_eq_true_iff.trans (not_congr BitVec.toNat_inj.symm)

theorem condIfg_iff {vA vB : Word} : condIfg vA vB = true ↔ vB.toNat < vA.toNat :=
  decide_eq_true_iff

theorem and_eq_zero_iff {vA vB : Word} :
    vA &&& vB = 0 ↔ ∀ k : Nat, vA.getLsbD k = true → vB.getLsbD k = false := by
  have hzero : vA &&& vB = 0 ↔ ∀ k : Nat, (vA &&& vB).getLsbD k = false :=
    ⟨fun h k => by simp [h], fun h => BitVec.eq_of_getLsbD_eq fun k _ => by simpa using h k⟩
  refine hzero.trans (forall_congr' fun k => ?_)
  simp

theorem condIfb_iff {vA vB : Word} :
    condIfb vA vB = true ↔ ∃ k : Nat, vA.getLsbD k = true ∧ vB.getLsbD k = true := by
  rw [condIfb, decide_eq_true_iff, ne_eq, and_eq_zero_iff]
  simp

/-! ### Executing a conditional (R106) -/

section
variable {op : BasicOp} {c : Cond} (hc : basicEffect op = .inr c) (a b : Operand) (s : State)
include hc

theorem exec_instr_test :
    exec (op.instr a b) s = .next (if c (gather a b s).vA (gather a b s).vB = true
      then (gather a b s).state else (gather a b s).state.setSkip true) := by
  rw [exec_instr, runBasic_test hc, runTest]

/-- A conditional's branch is decided by any statement of its condition. -/
theorem exec_instr_test_of_iff {p : Prop} [Decidable p]
    (hp : c (gather a b s).vA (gather a b s).vB = true ↔ p) :
    exec (op.instr a b) s = .next (if p
      then (gather a b s).state else (gather a b s).state.setSkip true) := by
  rw [exec_instr_test hc, if_congr hp rfl rfl]

end

/-- Settles O33: words are equal exactly when their numbers are, and IFN is IFE with the branches
exchanged. -/
theorem equalityTestsSkip : Obligations.EqualityTestsSkip := by
  refine fun a b s => ⟨exec_instr_test_of_iff (op := .ife) rfl a b s condIfe_iff, ?_⟩
  rw [← ite_not]
  exact exec_instr_test_of_iff (op := .ifn) rfl a b s condIfn_iff

/-- Settles O34: IFG compares the words' numbers, and IFB's conjunction is nonzero exactly when some bit
is set in both words. -/
theorem orderAndBitTestsSkip : Obligations.OrderAndBitTestsSkip := by
  refine fun a b s => ⟨exec_instr_test_of_iff (op := .ifg) rfl a b s condIfg_iff, fun hbit => ?_,
    fun hno => ?_⟩
  · exact (exec_instr_test (op := .ifb) rfl a b s).trans (congrArg _ (if_pos (condIfb_iff.2 hbit)))
  · have hcond : ¬ condIfb (gather a b s).vA (gather a b s).vB = true :=
      mt condIfb_iff.1 (by simpa using hno)
    exact (exec_instr_test (op := .ifb) rfl a b s).trans (congrArg _ (if_neg hcond))

/-! ### The invariant (R156, R170) -/

/-- An instruction that sets skip_next is a conditional, which leaves PC past its own words (R150). -/
theorem exec_pc_of_sets_skip {i : Instr} {s t : State} (ht : exec i s = .next t)
    (hs : s.skipNext = false) (hskip : t.skipNext = true) : t.pc = s.pc := by
  have hkeep : t.skipNext ≠ s.skipNext := by simp [hs, hskip]
  obtain ⟨op, a, b, rfl⟩ | ⟨x, rfl⟩ | ⟨e, x, rfl⟩ := i.cases_shape
  · rw [exec_instr] at ht
    cases ht
    obtain ⟨-, f, hf⟩ | ⟨-, c, hc⟩ := runBasic_cases op
    · rw [runBasic_alu hf, runAlu_skipNext] at hkeep
      exact absurd rfl hkeep
    · rw [runBasic_test hc, runTest_eq, State.setSkip_pc, gather_state_pc]
  · cases ht
    exact absurd (resolve_skipNext x s) hkeep
  · cases ht
    exact absurd rfl hkeep

/-- In a core without a fault the invariant is about memory and a pending skip. -/
theorem inv_of_not_faulted {s : State} (hmem : Memory.wf s.mem = true) (hno : s.faulted = none)
    (hskip : s.skipNext = true → s.lastPc ≠ none ∧ s.lastPc ≠ some s.pc) : s.Inv where
  memory := hmem
  skipPending _ := hskip
  faultRecord _ _ hfault := nomatch hno.symm.trans hfault

section
variable {s : State} (hmem : Memory.wf s.mem = true)
include hmem

/-- A fault leaves PC at the reserved word, where it was recorded (R170). -/
theorem inv_takeFault (hpat : reservedPattern (s.readMem s.pc)) :
    (s.markPc.takeFault .unrecognizedExtended (s.readMem s.pc)).Inv where
  memory := hmem
  skipPending hno := nomatch hno
  faultRecord _ _ hfault := by
    cases hfault
    exact ⟨rfl, rfl, (isReserved_fetch_iff s).2 hpat, rfl⟩

/-- An instruction that may set skip_next runs with PC off the recorded address (R156). -/
theorem inv_exec_fetch {t : State} (hno : s.faulted = none) (hskip : s.skipNext = false)
    (hres : s.fetch.1.isReserved = false)
    (ht : exec s.fetch.1 (s.markPc.advance s.fetch.2) = .next t) : t.Inv := by
  have hlast : t.lastPc = some s.pc := (exec_keeps_record ht).1
  have hfault : t.faulted = none := ((exec_keeps_record ht).2 hres).trans hno
  refine inv_of_not_faulted (exec_wf ht hmem) hfault fun hset => ?_
  have hpc : t.pc = s.pc + narrow s.fetch.2 := exec_pc_of_sets_skip ht hskip hset
  obtain ⟨hone, hthree⟩ := fetch_length hres
  rw [hlast, hpc]
  exact ⟨Option.some_ne_none _, fun h => advance_ne s.pc hone hthree (Option.some.inj h).symm⟩

end

/-- Settles O9: a stopped core stays as it is, and a ready one takes a fault, clears a skip or executes
an instruction. -/
theorem stepKeepsInvariant : Obligations.StepKeepsInvariant := by
  intro s t hinv ht
  by_cases hs : s.Ready
  · obtain ⟨hpat, hstep⟩ | ⟨-, -, hstep⟩ | ⟨hres, hskip, hstep⟩ := step_cases_of_ready hs
    all_goals rw [hstep] at ht
    · cases ht
      exact inv_takeFault hinv.memory hpat
    · cases ht
      exact inv_of_not_faulted hinv.memory hs.1 nofun
    · exact inv_exec_fetch hinv.memory hs.1 hskip hres ht
  · rw [step_of_not_ready hs] at ht
    cases ht
    exact hinv

end Sys2Proof.Machine

/-! PROOFS. The family of spec/43_jsr.md: the push of JSR, the jumps through PC, and the return idiom. -/

namespace Sys2Proof.Machine

/-! ### JSR (R160) -/

section
variable {s : State}

theorem State.pushReturn_readMem_same (hm : Memory.wf s.mem = true) :
    s.pushReturn.readMem s.sp = s.pc :=
  Memory.read_write_same hm s.sp s.pc

theorem State.pushReturn_readMem_other {addr : Word} (h : addr ≠ s.sp) :
    s.pushReturn.readMem addr = s.readMem addr :=
  Memory.read_write_other s.mem s.pc h

variable (hm : Memory.wf s.mem = true) (x : Operand)
include hm

/-- The operand's resolution keeps PC and memory, so JSR pushes the PC it runs with. -/
theorem getValue_pushReturn_readMem :
    (getValue x s).1.pushReturn.readMem (getValue x s).1.sp = s.pc := by
  have hwf : Memory.wf (getValue x s).1.mem = true := by rwa [getValue_fst, resolve_mem]
  rw [State.pushReturn_readMem_same hwf, getValue_fst, resolve_pc]

/-- The return address of JSR lies one above the SP it leaves (90_conflicts.md C5). -/
theorem readMem_above_sp_of_exec_jsr {t : State} (ht : exec (.jsr x) s = .next t) :
    t.readMem (t.sp + 1) = s.pc := by
  rw [exec_jsr] at ht
  cases ht
  rw [State.setPc_sp, State.pushReturn_sp, BitVec.sub_add_cancel, State.setPc_readMem,
    getValue_pushReturn_readMem hm]

end

/-- Settles O35: memory changes at the pushed word alone, and the operand's resolution moves SP alone. -/
theorem jsrResult : Obligations.JsrResult := by
  refine fun x s hm => ⟨_, exec_jsr x s, rfl, toNat_sub_one _, getValue_pushReturn_readMem hm x,
    fun addr haddr => ?_, resolve_regs x s, resolve_o x s, resolve_skipNext x s, resolve_lastPc x s,
    resolve_faulted x s⟩
  rw [State.setPc_readMem, State.pushReturn_readMem_other haddr, getValue_fst, resolve_readMem]

/-! ### Jumps through operand A (R107, R161) -/

/-- B's resolution keeps PC, so with A = PC the ALU computes on the PC the instruction runs with. -/
theorem runAlu_pc_of_target_pc (f : AluOp) (b : Operand) (s : State) :
    (runAlu f .pc b s).pc = (f s.pc (getValue b s).2 s.o).1 := by
  have hvA : (gather .pc b s).vA = s.pc := resolve_pc b s
  rw [runAlu_eq, hvA]
  rfl

/-- Settles O37: each opcode's result with PC as A's value. -/
theorem jumpsThroughPc : Obligations.JumpsThroughPc := by
  refine fun b s => ⟨_, _, _, rfl, rfl, rfl, ?_, ?_, ?_⟩ <;> rw [runAlu_pc_of_target_pc]
  · rfl
  · exact aluAdd_fst_toNat ..
  · exact aluSub_fst_toNat ..

/-! ### The return idiom (R160, 90_conflicts.md C5) -/

theorem aluAdd_fst (vA vB o : Word) : (aluAdd vA vB o).1 = vA + vB :=
  BitVec.eq_of_toNat_eq ((aluAdd_fst_toNat ..).trans (BitVec.toNat_add ..).symm)

theorem exec_add_sp_one (s : State) :
    ∃ t, exec (.add .sp (.immInline 1)) s = .next t ∧ t.sp = s.sp + 1 ∧ t.mem = s.mem :=
  ⟨_, rfl, aluAdd_fst s.sp 1 s.o, rfl⟩

theorem exec_set_pc_pop (s : State) :
    exec (.set .pc .pop) s = .next ((s.setSp (s.sp + 1)).setPc (s.readMem s.sp)) := rfl

/-- Settles O36: the ADD moves SP up to the return address, and the SET pops it into PC. -/
theorem returnIdiomReturns : Obligations.ReturnIdiomReturns := by
  intro x s t u hm ht husp humem
  obtain ⟨v, hv, hvsp, hvmem⟩ := exec_add_sp_one u
  refine ⟨v, hv, fun w hwsp hwmem => ⟨_, exec_set_pc_pop w, ?_, ?_⟩⟩
  · have hsp : w.sp = t.sp + 1 := by rw [hwsp, hvsp, husp]
    have hmem : w.mem = t.mem := by rw [hwmem, hvmem, humem]
    have hpop : w.readMem w.sp = t.readMem (t.sp + 1) := by rw [State.readMem, hsp, hmem, State.readMem]
    exact hpop.trans (readMem_above_sp_of_exec_jsr hm x ht)
  · rw [State.setPc_sp, State.setSp_sp, hwsp, hvsp, husp, BitVec.add_assoc]
    rfl

end Sys2Proof.Machine

/-! PROOFS. The family of spec/60_exceptions.md: the fault of a reserved word and the only way to it, the
self-jump that halts the core, and the completion of every step. -/

namespace Sys2Proof.Machine

/-! ### The fault of a reserved word (R63, R170 to R172, R175) -/

/-- The opcode word of a reserved extended instruction as a number (R63). -/
theorem reservedWord_toNat (e x : BitVec 6) :
    (reservedWord e x).toNat = e.toNat * 16 + x.toNat * 1024 := by
  have ho : (reservedWord e x).toNat % 16 = 0 :=
    (opcodeField_toNat _).symm.trans (congrArg BitVec.toNat (opcodeField_packWord ..))
  have he : (reservedWord e x).toNat / 16 % 64 = e.toNat := by rw [← fieldA_toNat, fieldA_reservedWord]
  have hx : (reservedWord e x).toNat / 1024 % 64 = x.toNat := by rw [← fieldB_toNat, fieldB_reservedWord]
  have hlt : (reservedWord e x).toNat < 65536 := (reservedWord e x).isLt
  omega

/-- Settles O42: the fault's info is the reserved word itself. -/
theorem reservedExtendedTakesFault : Obligations.ReservedExtendedTakesFault := fun e x s =>
  ⟨reservedWord e x, exec_reservedExtended e x s, reservedWord_toNat e x⟩

/-- Settles O13: a stopped core keeps its fault record, and so does a ready one at a word that is not
reserved. -/
theorem faultOnlyFromReservedWord : Obligations.FaultOnlyFromReservedWord := by
  intro s t ht hno hfault
  have hs : s.Ready := by
    by_contra hs
    rw [step_of_not_ready hs] at ht
    cases ht
    exact hfault hno
  have hpat : reservedPattern (s.readMem s.pc) := by
    by_contra hpat
    obtain ⟨u, hu, huno⟩ := step_of_not_reservedPattern hs hpat
    rw [hu] at ht
    cases ht
    exact hfault huno
  rw [reservedWordFaults s hs hpat] at ht
  cases ht
  exact ⟨hpat, rfl⟩

/-! ### The self-jump (R102, R183) -/

/-- The word 0x7dc1 is SET PC with an extended immediate, the long form of a label reference (R66). -/
theorem decodeInstr_jump (v t : Word) : decodeInstr 0x7dc1 v t = (.set .pc (.immExtended v), 2) := rfl

theorem exec_jump (v : Word) (s : State) : exec (.set .pc (.immExtended v)) s = .next (s.setPc v) := rfl

/-- The jump brings PC back from past its own two words. -/
theorem step_self_jump {s : State} (hs : s.Ready) (hskip : s.skipNext = false)
    (hop : s.readMem s.pc = 0x7dc1) (htarget : s.readMem (s.pc + 1) = s.pc) :
    step s = .next s.markPc := by
  have hfetch : s.fetch = (.set .pc (.immExtended s.pc), 2) := by
    rw [State.fetch, fetchWord_zero, hop, State.fetchWord, htarget, decodeInstr_jump]
  have hres : s.fetch.1.isReserved = false := by rw [hfetch]; rfl
  rw [step_of_no_skip hs hres hskip, hfetch, exec_jump]
  rfl

/-- A halted core that is not faulted answers HALTED and its own state (R101, R110). -/
theorem transaction_of_halted {s : State} (hno : s.faulted = none) (hhalt : s.lastPc = some s.pc) :
    transaction s = .next (s, .halted) :=
  (statusOfStep s).2.1 hno hhalt

/-- Settles O38: the jump leaves PC at the recorded address, which is where the halt check stops. -/
theorem selfJumpHalts : Obligations.SelfJumpHalts := fun s hs hskip hop htarget =>
  ⟨s.markPc, step_self_jump hs hskip hop htarget, rfl, transaction_of_halted (s := s.markPc) hs.1 rfl⟩

/-! ### Completion (R172, R174) -/

/-- The checks of a step end it in a next state or leave it to `exec`, which always answers one. -/
theorem step_next (s : State) : ∃ t, step s = .next t := by
  cases hp : s.prepare with
  | done t => exact ⟨t, step_of_done hp⟩
  | run i t =>
    rw [step_of_run hp]
    exact exec_next i t

/-- Settles O43. -/
theorem everyStepCompletes : Obligations.EveryStepCompletes := ⟨step_next, exec_next⟩

end Sys2Proof.Machine

/-! PROOFS. The family of spec/70_reset_and_hazards.md: Load before and after the first Step, and the
driving loop. -/

namespace Sys2Proof.Machine

/-! ### Load (R191, R193) -/

theorem hasStepped_iff {s : State} : s.hasStepped = true ↔ s.lastPc ≠ none ∨ s.faulted ≠ none := by
  rw [State.hasStepped, State.isFaulted, Bool.or_eq_true, Option.isSome_iff_ne_none,
    Option.isSome_iff_ne_none]

section
variable {s : State} {image : List Word}

theorem load_of_hasStepped (h : s.hasStepped = true) : s.load image = .refused .loadAfterStep :=
  if_pos h

theorem load_of_long (h : s.hasStepped = false) (hlong : 65536 < image.length) :
    s.load image = .refused .imageTooLong := by
  rw [State.load, h, if_neg Bool.false_ne_true]
  exact if_pos hlong

theorem load_of_fits (h : s.hasStepped = false) (hfits : image.length ≤ 65536) :
    s.load image = .next (s.setMem (s.mem.writeList Config.resetVector image)) := by
  rw [State.load, h, if_neg Bool.false_ne_true]
  exact if_neg (Nat.not_lt.2 hfits)

theorem resetVector_add (w : Word) : Config.resetVector + w = w := BitVec.zero_add w

/-- A copy from the reset vector, address 0, puts each word at the address that is its index. -/
theorem read_writeList_resetVector_get {m : Memory} (hm : m.wf = true) (hfits : image.length ≤ 65536)
    {k : Nat} (hk : k < image.length) :
    (m.writeList Config.resetVector image).read (BitVec.ofNat 16 k) = image[k] := by
  have hget := Memory.read_writeList_get image m Config.resetVector hm hfits k hk
  rwa [resetVector_add] at hget

/-- A copy from the reset vector, address 0, leaves the addresses past the image as they were. -/
theorem read_writeList_resetVector_past (m : Memory) {addr : Word} (haddr : image.length ≤ addr.toNat) :
    (m.writeList Config.resetVector image).read addr = m.read addr := by
  refine Memory.read_writeList_other image m Config.resetVector addr fun k hk heq => ?_
  rw [heq, resetVector_add, BitVec.toNat_ofNat] at haddr
  have := Nat.mod_le k (2 ^ 16)
  omega

end

/-- Settles O47: before the first Step an image that fits is copied from address 0, and only memory
changes. -/
theorem loadPlacesImage : Obligations.LoadPlacesImage := by
  refine fun s image => ⟨fun hlast hno hm => ?_, fun h => load_of_hasStepped (hasStepped_iff.2 h)⟩
  have hfresh : s.hasStepped = false := by
    rw [Bool.eq_false_iff, ne_eq, hasStepped_iff, hlast, hno]
    simp
  exact ⟨fun hfits => ⟨_, load_of_fits hfresh hfits, Memory.writeList_wf image _ hm,
    fun _ => read_writeList_resetVector_get hm hfits, fun _ => read_writeList_resetVector_past s.mem, rfl⟩,
    load_of_long hfresh⟩

/-- A ready core's step records PC, and a core that is not ready shows an earlier step (R102). -/
theorem hasStepped_of_step {s t : State} (ht : step s = .next t) : t.hasStepped = true := by
  rw [hasStepped_iff]
  by_cases hs : s.Ready
  · rw [lastPc_of_ready_step hs ht]
    exact .inl (Option.some_ne_none _)
  · rw [step_of_not_ready hs] at ht
    cases ht
    obtain hfault | hhalt := not_ready_iff.1 hs
    · exact .inr hfault
    · rw [hhalt]
      exact .inl (Option.some_ne_none _)

/-- Settles O53: what a step records is what Load is refused for. -/
theorem noLoadAfterStep : Obligations.NoLoadAfterStep :=
  fun _ _ _ ht => load_of_hasStepped (hasStepped_of_step ht)

/-! ### The driving loop (R193) -/

/-- After one step the loop ends on a fault or a halt, and otherwise goes on from the state reached. -/
theorem drive_succ {s t : State} (ht : step s = .next t) (n : Nat) :
    drive (n + 1) s = if t.isFaulted then .next (t, .faulted)
      else if s.isHalted then .next (t, .halted) else drive n t := by
  rw [drive, transaction_of_step ht, stepStatus]
  cases t.isFaulted
  · cases s.isHalted <;> rfl
  · rfl

/-- The halt check compares members that a halted core's step keeps (R102, R110). -/
theorem isHalted_of_step {s t : State} (ht : step s = .next t) (hhalt : s.isHalted = true) :
    t.isHalted = true := by
  rw [step_of_not_ready (not_ready_iff.2 (.inr (isHalted_iff.1 hhalt)))] at ht
  cases ht
  exact hhalt

/-- Settles O17, by induction on the budget: each step keeps the invariant, and an end is reported from
the checks of the last one. -/
theorem driveEndsAsReported : Obligations.DriveEndsAsReported := by
  intro n
  induction n with
  | zero =>
    intro s t e hinv hdrive
    cases hdrive
    exact ⟨hinv, nofun, nofun⟩
  | succ n ih =>
    intro s t e hinv hdrive
    obtain ⟨u, hu⟩ := step_next s
    have huinv : u.Inv := stepKeepsInvariant s u hinv hu
    rw [drive_succ hu] at hdrive
    split_ifs at hdrive with hfault hhalt
    · cases hdrive
      exact ⟨huinv, nofun, fun _ => Option.isSome_iff_ne_none.1 hfault⟩
    · cases hdrive
      exact ⟨huinv, fun _ => ⟨Option.not_isSome_iff_eq_none.1 hfault, isHalted_of_step hu hhalt⟩, nofun⟩
    · exact ih u t e huinv hdrive

end Sys2Proof.Machine
